-- ==== Sys2Proof/Word.lean ====
section
/-! DEFINITION. The word types of IBUSENC (spec/00_scope.md R9: a byte is 8 bits, a word is 32 bits). -/

namespace Sys2Proof

/-- A byte, 8 bits: one frame byte FB[k], one read-port datum (R9, R26, R44). -/
abbrev Byte := BitVec 8

/-- A 16-bit unsigned value: a channel register, a configuration latch, the checksum (R20, R22, R102). -/
abbrev Half := BitVec 16

/-- A 32-bit word: header, data word, response (R9, R60). -/
abbrev Word := BitVec 32

/-- The fourteen data words DATA[0..13] of a transaction (R60). -/
abbrev DataWords := Vector Word 14

/-- The channel register file CH[0..13] (R22). -/
abbrev Channels := Vector Half 14

/-- The frame buffer FB[0..31] (R26). -/
abbrev Frame := Vector Byte 32

/-- A read-port address, 6 bits (R8, R40). -/
abbrev ReadAddr := BitVec 6

end Sys2Proof
end

