-- ==== Sys2Proof/Syntax.lean ====
section
/-! DEFINITION. The command set of IBUSENC as data (spec/30_encoding.md): one constructor of `Instr` per row of
spec/opcode_table.json; the transaction on the command port (R60); the assembly lines of R71 and R73; and the calls of the
document's interface that the host makes (R73, R74, spec/60_exceptions.md section 4). -/

namespace Sys2Proof

/-- One command transaction: the header word H and the data words DATA[0..13] (R60). -/
structure Transaction where
  header : Word
  data   : DataWords
  deriving DecidableEq, Repr

/-- A command, with the operands its pseudocode names: N is the 4-bit field H[11:8], IDX the 8-bit field H[23:16], DATA the
data words (R62, R63, R64, R65). All fourteen data words are kept, so that decoding drops no operand bit. -/
inductive Instr where
  /-- SETALL(N, DATA): store N channels (R82). -/
  | setall (n : BitVec 4) (data : DataWords)
  /-- SETONE(IDX, DATA): store one channel (R84). -/
  | setone (idx : BitVec 8) (data : DataWords)
  /-- ENCODE(N): rewrite the frame up to a limit (R107). It reads no data word (R65). -/
  | encode (limit : BitVec 4)
  /-- UPDATE(N, DATA): store N channels, then encode with limit N (R112). -/
  | update (n : BitVec 4) (data : DataWords)
  /-- UPDCH(IDX, DATA): store one channel, then a full encode (R114). -/
  | updch (idx : BitVec 8) (data : DataWords)
  deriving DecidableEq, Repr

/-- One line of command assembly (R71), and the two pseudo-commands (R73). Operands are the integers written in the line. -/
inductive Asm where
  | setall (values : List Int)
  | setone (idx value : Int)
  | encode (limit : Int)
  | update (values : List Int)
  | updch (idx value : Int)
  /-- `REFRESH`, which is `ENCODE 14`. -/
  | refresh
  /-- `FULLUPDATE v0..v(n-1)`, which is `SETALL v0..v(n-1)` then `ENCODE 14`. -/
  | fullupdate (values : List Int)
  deriving DecidableEq, Repr

/-- The document operations of R73, as the host's software calls them: integers of any size (R74). -/
inductive HostCall where
  | setAll (values : List Int)
  | setOne (index value : Int)
  /-- `encode(limit = 14)`: `none` is the default limit. -/
  | encode (limit : Option Int)
  | update (values : List Int)
  | updateChannel (index value : Int)
  /-- `getAll()`: the reads of 0x20..0x3B. -/
  | getAll
  /-- Reading the frame for the transport: the reads of 0x00..0x1F in offset order (R43, R140). -/
  | sendFrame
  deriving DecidableEq, Repr

/-- What a listener does when a tick calls it. The spec gives a meaning to the first only (93_implementation_defined.md
section 1, "A listener that throws or never returns"). -/
inductive ListenerBehaviour where
  | returns
  | neverReturns
  | throws
  deriving DecidableEq, Repr

/-- A registered listener: a name for the callback, and what calling it does (R142, R143). -/
structure Listener where
  id        : Nat
  behaviour : ListenerBehaviour
  deriving DecidableEq, Repr

/-- The configuration the document's `construct(config)` takes (R7, R141). -/
structure HostConfig where
  minValue            : Int
  maxValue            : Int
  defaultValue        : Int
  broadcastIntervalMs : Int
  maxListeners        : Nat
  deriving DecidableEq, Repr

end Sys2Proof
end

