-- ==== Sys2Proof/WellFormed.lean ====
section
/-! DEFINITION. Which commands have a legal encoding (spec/30_encoding.md R64, R67, R68): the count of SETALL and UPDATE and the
limit of ENCODE are at most 14. Every index 0..255 is a legal encoding (R63). -/

namespace Sys2Proof

/-- A count or limit field that is legal: N ≤ 14 (R64, R67). -/
def countLegal (n : BitVec 4) : Bool := decide (n.toNat ≤ 14)

/-- A command that has a legal encoding (R67). -/
def Instr.wf : Instr → Bool
  | .setall n _ => countLegal n
  | .setone _ _ => true
  | .encode limit => countLegal limit
  | .update n _ => countLegal n
  | .updch _ _ => true

end Sys2Proof
end

