-- ==== Sys2Proof/Decode.lean ====
section
/-! DEFINITION. The decoder of the command port, total over all header words, and the encoder (spec/30_encoding.md R61 to R70).
The port moves whole 32-bit words (R46, R60), so no byte order enters here. -/

namespace Sys2Proof

/-- OP, H[31:28] (R61). -/
def opField (h : Word) : BitVec 4 := h.extractLsb' 28 4
/-- RSV_A, H[27:24] (R61). -/
def rsvAField (h : Word) : BitVec 4 := h.extractLsb' 24 4
/-- IDX, H[23:16] (R61). -/
def idxField (h : Word) : BitVec 8 := h.extractLsb' 16 8
/-- RSV_B, H[15:12] (R61). -/
def rsvBField (h : Word) : BitVec 4 := h.extractLsb' 12 4
/-- N, H[11:8] (R61). -/
def nField (h : Word) : BitVec 4 := h.extractLsb' 8 4
/-- RSV_C, H[7:0] (R61). -/
def rsvCField (h : Word) : BitVec 8 := h.extractLsb' 0 8

/-- Why a header is illegal (R68), one name per bullet of the rule. The response is the same for all (R132), so the name is
for readers only (log 20). -/
inductive Illegal where
  /-- OP ∈ {0x0, 0x6, …, 0xF}. -/
  | reservedOpcode
  /-- RSV_A, RSV_B or RSV_C is not zero. -/
  | reservedField
  /-- A field the OP does not use is not zero (R66). -/
  | unusedField
  /-- N = 15 with SETALL, ENCODE or UPDATE. -/
  | countFifteen
  deriving DecidableEq, Repr

/-- The commands that use N: IDX must be zero and N at most 14 (R62, R66, R68). -/
def decodeCounted (h : Word) (i : Instr) : Except Illegal Instr :=
  if idxField h ≠ 0#8 then .error .unusedField
  else if countLegal (nField h) then .ok i
  else .error .countFifteen

/-- The commands that use IDX: N must be zero (R62, R66, R68). -/
def decodeIndexed (h : Word) (i : Instr) : Except Illegal Instr :=
  if nField h ≠ 0#4 then .error .unusedField else .ok i

/-- The decoder: one of the five commands, or illegal (R62, R68, R70). Total over all 2^32 headers. -/
def decode (t : Transaction) : Except Illegal Instr :=
  if rsvAField t.header ≠ 0#4 ∨ rsvBField t.header ≠ 0#4 ∨ rsvCField t.header ≠ 0#8 then .error .reservedField
  else match (opField t.header).toNat with
    | 0x1 => decodeCounted t.header (.setall (nField t.header) t.data)
    | 0x2 => decodeIndexed t.header (.setone (idxField t.header) t.data)
    | 0x3 => decodeCounted t.header (.encode (nField t.header))
    | 0x4 => decodeCounted t.header (.update (nField t.header) t.data)
    | 0x5 => decodeIndexed t.header (.updch (idxField t.header) t.data)
    | _ => .error .reservedOpcode

/-- R68 as the rule states it, bullet by bullet, apart from the decoder. -/
def illegalHeader (h : Word) : Bool :=
  let op := (opField h).toNat
  decide (op = 0x0 ∨ 0x6 ≤ op)
    || decide (rsvAField h ≠ 0#4 ∨ rsvBField h ≠ 0#4 ∨ rsvCField h ≠ 0#8)
    || decide ((op = 0x1 ∨ op = 0x3 ∨ op = 0x4) ∧ idxField h ≠ 0#8)
    || decide ((op = 0x2 ∨ op = 0x5) ∧ nField h ≠ 0#4)
    || decide ((op = 0x1 ∨ op = 0x3 ∨ op = 0x4) ∧ nField h = 15#4)

/-- `H = {OP, 0b0000, IDX, 0b0000, N, 0x00}` (R61). -/
def headerWord (op : BitVec 4) (idx : BitVec 8) (n : BitVec 4) : Word :=
  op ++ 0#4 ++ idx ++ 0#4 ++ n ++ 0#8

/-- Fourteen data words of zero: what an assembler writes into unused data words (R71). -/
def zeroData : DataWords := Vector.replicate 14 0#32

/-- The encoder: the transaction of a command (R61, R62, R71). -/
def encode : Instr → Transaction
  | .setall n data => ⟨headerWord 0x1#4 0#8 n, data⟩
  | .setone idx data => ⟨headerWord 0x2#4 idx 0#4, data⟩
  | .encode limit => ⟨headerWord 0x3#4 0#8 limit, zeroData⟩
  | .update n data => ⟨headerWord 0x4#4 0#8 n, data⟩
  | .updch idx data => ⟨headerWord 0x5#4 idx 0#4, data⟩

/-- One row of the opcode map (R67): a header is that command when `(H & mask) == match` and, where the row says so,
N ≤ 14. -/
structure OpcodeRow where
  matchWord   : Word
  maskWord    : Word
  countLimited : Bool
  deriving DecidableEq, Repr

/-- The row of R67 for a command. -/
def opcodeRow : Instr → OpcodeRow
  | .setall _ _ => ⟨0x10000000#32, 0xFFFFF0FF#32, true⟩
  | .setone _ _ => ⟨0x20000000#32, 0xFF00FFFF#32, false⟩
  | .encode _ => ⟨0x30000000#32, 0xFFFFF0FF#32, true⟩
  | .update _ _ => ⟨0x40000000#32, 0xFFFFF0FF#32, true⟩
  | .updch _ _ => ⟨0x50000000#32, 0xFF00FFFF#32, false⟩

/-- `(H & mask) == match` and the row's constraint on N (R67). -/
def OpcodeRow.admits (r : OpcodeRow) (h : Word) : Bool :=
  decide (h &&& r.maskWord = r.matchWord) && (!r.countLimited || countLegal (nField h))

/-- The transaction whose bits are `w`, numbered as the opcode table numbers them: the header is the first word, DATA[j] the
(j+1)-th word after it, and every bit from `nbits` on is 0 (log 19). -/
def tableTransaction (nbits w : Nat) : Transaction :=
  let bits := w % 2 ^ nbits
  ⟨BitVec.ofNat 32 bits, Vector.ofFn (fun j : Fin 14 => BitVec.ofNat 32 (bits >>> (32 * (j.val + 1))))⟩

/-- What the decoder reads from a word of the opcode table; `none` where it refuses. -/
def decodeTableWord (nbits w : Nat) : Option Instr :=
  match decode (tableTransaction nbits w) with
  | .ok i => some i
  | .error _ => none

end Sys2Proof
end

