-- ==== Sys2Proof/Config.lean ====
section
/-! DEFINITION. The fixed parameters of IBUSENC (spec/00_scope.md R6), the document's default configuration (R7, R21), the
host's parameters (spec/60_exceptions.md R141), and the one value the spec leaves open (spec/92_eei_decisions.md D23). -/

namespace Sys2Proof.Config

/-- HDR0, the frame byte at offset 0 (R6). -/
def hdr0 : Byte := 0x20#8

/-- HDR1, the frame byte at offset 1 (R6). -/
def hdr1 : Byte := 0x40#8

/-- CK_INIT = 0xFFFF − 0x20 − 0x40 (R6): the value the running checksum starts from. -/
def ckInit : Half := 0xFFFF#16 - 0x20#16 - 0x40#16

/-- The document's default of CFG_MIN (R7, R21). -/
def defaultMin : Half := 1000#16

/-- The document's default of CFG_MAX (R7, R21). -/
def defaultMax : Half := 2000#16

/-- The document's default of CFG_DEFAULT (R7, R21). -/
def defaultValue : Half := 1500#16

/-- The floor of BROADCAST_INTERVAL_MS: "A configured interval below 7 is raised to 7" (R141). -/
def intervalFloorMs : Nat := 7

/-- The default of BROADCAST_INTERVAL_MS (R141). -/
def defaultIntervalMs : Nat := 7

/-- The default of MAX_LISTENERS (R141). -/
def defaultMaxListeners : Nat := 10

/-- The two values HOST_START_ON_LISTEN_FAIL may have (92_eei_decisions.md D23). -/
inductive StartOnListenFail where
  /-- `start` ends before step 3: nothing is stored, the host does not enter Running. -/
  | abortBeforeRunning
  /-- `start` goes on with step 3 without the callback. -/
  | continueToRunning
  deriving DecidableEq, Repr, Inhabited

/-- HOST_START_ON_LISTEN_FAIL, which the spec leaves OPEN (R144, D23): a free value, so every claim holds for both
choices (log 11). -/
opaque startOnListenFail : StartOnListenFail

end Sys2Proof.Config
end

