-- ==== Sys2Proof/Machine/State.lean ====
section
/-! DEFINITION. The state: the three configuration latches, the channel register file, the frame buffer (spec/10_state.md), the
host agent's own state (spec/60_exceptions.md R141, R142), and the two lists that carry what goes into and comes out of the ports
(spec/20_memory.md R48: one total order). -/

namespace Sys2Proof.Machine

/-- What the host may do next (R140, R48). One step takes one of these. -/
inductive Input where
  /-- A transaction on the command port (R60). -/
  | command (t : Transaction)
  /-- One byte read of the read port (R44). -/
  | read (addr : ReadAddr)
  /-- Reset with the configuration inputs (R161). -/
  | reset (cfgMin cfgMax cfgDefault : Half)
  /-- The document's `construct(config)`: a new host instance, which resets the block (R161, R163). -/
  | construct (config : HostConfig)
  /-- An assembly line, assembled and issued (R71, R73). -/
  | asm (line : Asm)
  /-- A call of a document operation, turned into commands and reads (R73, R74). -/
  | call (c : HostCall)
  /-- `listen(cb)` (R143). -/
  | listen (l : Listener)
  /-- `start(values?, cb?)`, steps 1 to 3 (R144). -/
  | start (values : Option (List Int)) (callback : Option Listener)
  /-- Step 4 of `start`: enter Running and start the timer (R144). Given by itself it is `start()` in Idle and nothing in
  Running (log 10). -/
  | enterRunning
  /-- `stop()` (R145). -/
  | stop
  /-- The runtime offers a tick; it fires only in Running and when it is due (R146, R148; log 13). -/
  | tick
  /-- Host time passes (R148). -/
  | elapse (ms : Nat)
  deriving DecidableEq, Repr

/-- What leaves the ports and the host agent. -/
inductive Output where
  /-- The response word of a command (R72). -/
  | response (word : Word)
  /-- RDATA of a read (R44). -/
  | rdata (byte : Byte)
  /-- A frame handed to a listener by a tick (R146). -/
  | delivered (listener : Nat) (frame : Frame)
  /-- The host error MaxListenersExceeded (R143, R149). -/
  | maxListenersExceeded
  deriving DecidableEq, Repr

/-- The Broadcaster's mode (R142). -/
inductive Mode where
  | idle
  | running
  deriving DecidableEq, Repr

/-- The Broadcaster's periodic timer while it is active (R142, R144, R148). -/
structure Timer where
  /-- The period in ms. -/
  periodMs   : Nat
  /-- The host time of the last tick of this timer; none before its first. -/
  lastTickMs : Option Nat
  deriving DecidableEq, Repr

/-- The state of the block and of its host. -/
structure State where
  /-- CFG_MIN (R20, R21). -/
  cfgMin       : Half
  /-- CFG_MAX (R20, R21). -/
  cfgMax       : Half
  /-- CFG_DEFAULT (R20, R21). -/
  cfgDefault   : Half
  /-- CH[0..13] (R22). -/
  ch           : Channels
  /-- FB[0..31] (R26). -/
  fb           : Frame
  /-- The Broadcaster's mode (R142). -/
  mode         : Mode
  /-- The listener list L, in registration order (R142). -/
  listeners    : List Listener
  /-- The timer, present exactly when it is active (R142). -/
  timer        : Option Timer
  /-- BROADCAST_INTERVAL_MS (R141). -/
  intervalMs   : Nat
  /-- MAX_LISTENERS (R141). -/
  maxListeners : Nat
  /-- The host's time in ms (R148). -/
  clockMs      : Nat
  /-- What the host does next, first item first (R48; the model's own field, log 2). -/
  inputs       : List Input
  /-- What has been given out, oldest first; no step reads it (R31; the model's own field, log 3). -/
  outputs      : List Output
  deriving DecidableEq, Repr

/-- Why the machine stops. No command of the block raises one: the block has no traps and never hangs (R130, R135). -/
inductive Fault where
  /-- A tick called a listener that never returns, so the tick never ends and no command runs again
  (93_implementation_defined.md section 1: `stuck`). Raised by a tick. Safe: the spec says the host is stuck there. -/
  | listenerNeverReturns
  deriving DecidableEq, Repr

/-- What has no meaning. No command of the block raises one (R130). -/
inductive Refusal where
  /-- An instruction without a meaning yet. No arm of `exec` raises it now. Safe. -/
  | notModelled (mnemonic : String)
  /-- A reset or `construct` whose configuration breaks CFG_MIN ≤ CFG_DEFAULT ≤ CFG_MAX or does not fit 16 bits: "it has no
  reset step for it" (R7, R161). Raised by the reset and construct inputs. Safe. -/
  | illFormedConfiguration
  /-- A host call with more than 14 values, which has no meaning (R74(d)). Raised by the call and start inputs. Safe. -/
  | tooManyValues
  /-- An operand that no header can carry: an assembly line the assembler refuses (R71), or an encode limit outside 0..14
  (91_not_in_source.md, 30_encoding.md section). Raised by the asm and call inputs. Safe. -/
  | noEncoding
  /-- A tick called a listener that throws, to which the host model gives no meaning (93_implementation_defined.md
  section 1: `refuse`). Raised by a tick. Safe. -/
  | listenerThrows
  deriving DecidableEq, Repr

/-- The frame right after reset with the default configuration, the 32 bytes of R27. -/
def resetFrame : Frame :=
  #v[0x20#8, 0x40#8, 0xDC#8, 0x05#8, 0xDC#8, 0x05#8, 0xDC#8, 0x05#8,
     0xDC#8, 0x05#8, 0xDC#8, 0x05#8, 0xDC#8, 0x05#8, 0xDC#8, 0x05#8,
     0xDC#8, 0x05#8, 0xDC#8, 0x05#8, 0xDC#8, 0x05#8, 0xDC#8, 0x05#8,
     0xDC#8, 0x05#8, 0xDC#8, 0x05#8, 0xDC#8, 0x05#8, 0x51#8, 0xF3#8]

/-- The machine right after reset (R160), with the document's default configuration on the configuration inputs (log 1), the
Broadcaster in Idle with no listeners (R142, R160), and nothing yet asked of it. -/
def State.reset : State where
  cfgMin       := Config.defaultMin
  cfgMax       := Config.defaultMax
  cfgDefault   := Config.defaultValue
  ch           := Vector.replicate 14 Config.defaultValue
  fb           := resetFrame
  mode         := .idle
  listeners    := []
  timer        := none
  intervalMs   := Config.defaultIntervalMs
  maxListeners := Config.defaultMaxListeners
  clockMs      := 0
  inputs       := []
  outputs      := []

end Sys2Proof.Machine
end

