-- ==== Sys2Proof/Machine/Assembler.lean ====
section
/-! DEFINITION. How the host forms transactions: the assembler (spec/30_encoding.md R71), the pseudo-commands and the document
operations (R73), and the mapping of integer operands onto the words the block sees (R74). -/

namespace Sys2Proof.Machine

/-! ### The assembler -/

/-- A value operand: an integer in [−2^31, 2^31 − 1], encoded as its 32-bit two's-complement word (R71). -/
def valueWord (v : Int) : Option Word :=
  if -2 ^ 31 ≤ v ∧ v ≤ 2 ^ 31 - 1 then some (BitVec.ofInt 32 v) else none

/-- An index operand: 0..255 (R71). -/
def indexOperand (idx : Int) : Option (BitVec 8) :=
  if 0 ≤ idx ∧ idx ≤ 255 then some (BitVec.ofInt 8 idx) else none

/-- A limit operand: 0..14 (R71). -/
def limitOperand (lim : Int) : Option (BitVec 4) :=
  if 0 ≤ lim ∧ lim ≤ 14 then some (BitVec.ofInt 4 lim) else none

/-- Value words in DATA[0..n−1], zero in the unused data words (R71). -/
def dataWords (ws : List Word) : DataWords := Vector.ofFn (fun j : Fin 14 => ws.getD j.val 0#32)

/-- The value operands of SETALL and UPDATE: at most 14, the count and the data words (R71). -/
def valueOperands (values : List Int) : Option (BitVec 4 × DataWords) :=
  if values.length ≤ 14 then
    (values.mapM valueWord).map (fun ws => (BitVec.ofNat 4 values.length, dataWords ws))
  else none

/-- The commands an assembly line stands for; `none` where the assembler refuses the line (R71, R73). -/
def assemble : Asm → Option (List Transaction)
  | .setall values => (valueOperands values).map (fun p => [encode (.setall p.1 p.2)])
  | .setone idx value =>
    (indexOperand idx).bind fun i => (valueWord value).map fun w => [encode (.setone i (dataWords [w]))]
  | .encode limit => (limitOperand limit).map (fun n => [encode (.encode n)])
  | .update values => (valueOperands values).map (fun p => [encode (.update p.1 p.2)])
  | .updch idx value =>
    (indexOperand idx).bind fun i => (valueWord value).map fun w => [encode (.updch i (dataWords [w]))]
  | .refresh => some [encode (.encode 14#4)]
  | .fullupdate values =>
    (valueOperands values).map (fun p => [encode (.setall p.1 p.2), encode (.encode 14#4)])

/-! ### The text of an assembly line (log 22) -/

/-- The value of a decimal digit. -/
def decDigit (c : Char) : Option Nat :=
  if '0'.toNat ≤ c.toNat ∧ c.toNat ≤ '9'.toNat then some (c.toNat - '0'.toNat) else none

/-- The value of a hexadecimal digit, either case. -/
def hexDigit (c : Char) : Option Nat :=
  if 'a'.toNat ≤ c.toNat ∧ c.toNat ≤ 'f'.toNat then some (c.toNat - 'a'.toNat + 10)
  else if 'A'.toNat ≤ c.toNat ∧ c.toNat ≤ 'F'.toNat then some (c.toNat - 'A'.toNat + 10)
  else decDigit c

/-- The digits after the first, with `_` allowed between digits (R9). -/
def digitsFrom (base : Nat) (digit : Char → Option Nat) : Nat → List Char → Option Nat
  | acc, [] => some acc
  | acc, '_' :: c :: cs => (digit c).bind (fun d => digitsFrom base digit (acc * base + d) cs)
  | acc, c :: cs => (digit c).bind (fun d => digitsFrom base digit (acc * base + d) cs)

/-- A digit and the digits after it. -/
def number (base : Nat) (digit : Char → Option Nat) : List Char → Option Nat
  | [] => none
  | c :: cs => (digit c).bind (fun d => digitsFrom base digit d cs)

/-- A number without sign: decimal, or hexadecimal after `0x` (R9, R71). -/
def unsignedLiteral : List Char → Option Nat
  | '0' :: 'x' :: cs => number 16 hexDigit cs
  | cs => number 10 decDigit cs

/-- A decimal or 0x-hex integer (R71), with `-` before a negative one. -/
def intLiteral : List Char → Option Int
  | '-' :: cs => (unsignedLiteral cs).map (fun n => -(n : Int))
  | cs => (unsignedLiteral cs).map (fun n => (n : Int))

/-- Leave out the blanks at both ends. -/
def trimBlanks (cs : List Char) : List Char :=
  ((cs.dropWhile (· == ' ')).reverse.dropWhile (· == ' ')).reverse

/-- The parts of an operand list between its commas. -/
def commaParts : List Char → List (List Char)
  | [] => [[]]
  | ',' :: cs => [] :: commaParts cs
  | c :: cs =>
    match commaParts cs with
    | [] => [[c]]
    | p :: ps => (c :: p) :: ps

/-- The operands of a line: none, or integers between commas. -/
def operandList (cs : List Char) : Option (List Int) :=
  if trimBlanks cs = [] then some [] else (commaParts cs).mapM (fun p => intLiteral (trimBlanks p))

/-- One line of assembly text: a mnemonic, then its operands (R71, R73); `none` where it is no line of the syntax. -/
def parseLine (line : List Char) : Option Asm :=
  let cs := trimBlanks line
  let mnemonic := cs.takeWhile (· != ' ')
  (operandList (cs.dropWhile (· != ' '))).bind fun ops =>
    if mnemonic = ['S', 'E', 'T', 'A', 'L', 'L'] then some (.setall ops)
    else if mnemonic = ['U', 'P', 'D', 'A', 'T', 'E'] then some (.update ops)
    else if mnemonic = ['F', 'U', 'L', 'L', 'U', 'P', 'D', 'A', 'T', 'E'] then some (.fullupdate ops)
    else if mnemonic = ['S', 'E', 'T', 'O', 'N', 'E'] then
      match ops with
      | [idx, v] => some (.setone idx v)
      | _ => none
    else if mnemonic = ['U', 'P', 'D', 'C', 'H'] then
      match ops with
      | [idx, v] => some (.updch idx v)
      | _ => none
    else if mnemonic = ['E', 'N', 'C', 'O', 'D', 'E'] then
      match ops with
      | [lim] => some (.encode lim)
      | _ => none
    else if mnemonic = ['R', 'E', 'F', 'R', 'E', 'S', 'H'] then
      match ops with
      | [] => some .refresh
      | _ => none
    else none

/-! ### The host's mapping of document operands -/

/-- A document index outside 0..255 is sent as 0xFF (R74(a)). -/
def hostIndex (index : Int) : Int := if 0 ≤ index ∧ index ≤ 255 then index else 0xFF

/-- A document value outside int32 is sent saturated (R74(b)). -/
def hostValue (value : Int) : Int := max (-2 ^ 31) (min value (2 ^ 31 - 1))

/-- The reads of `count` addresses from `first` on, in rising order. -/
def readsFrom (first count : Nat) : List Input :=
  (List.range count).map (fun k => .read (BitVec.ofNat 6 (first + k)))

/-- The inputs a list of commands stands for. -/
def issue (ts : List Transaction) : List Input := ts.map .command

/-- What the host does for a document operation (R73). More than 14 values have no meaning (R74(d)); a limit outside 0..14 has
no encoding. The frame is read in offset order, as R43 says; that `getAll` reads its 28 bytes in rising order, low byte first, is
the model's choice (R46 allows either order of the two bytes, and R73 gives none; log 26). -/
def hostActions : HostCall → Except Refusal (List Input)
  | .setAll values =>
    match assemble (.setall (values.map hostValue)) with
    | some ts => .ok (issue ts)
    | none => .error .tooManyValues
  | .setOne index value =>
    match assemble (.setone (hostIndex index) (hostValue value)) with
    | some ts => .ok (issue ts)
    | none => .error .noEncoding
  | .encode limit =>
    match assemble (.encode (limit.getD 14)) with
    | some ts => .ok (issue ts)
    | none => .error .noEncoding
  | .update values =>
    match assemble (.update (values.map hostValue)) with
    | some ts => .ok (issue ts)
    | none => .error .tooManyValues
  | .updateChannel index value =>
    match assemble (.updch (hostIndex index) (hostValue value)) with
    | some ts => .ok (issue ts)
    | none => .error .noEncoding
  | .getAll => .ok (readsFrom 0x20 28)
  | .sendFrame => .ok (readsFrom 0x00 32)

/-- What the host does for an assembly line, in place of the line (R71, R73). -/
def runAsm (line : Asm) (s : State) : Host.Outcome State Fault Refusal :=
  match assemble line with
  | some ts => .next { s with inputs := issue ts ++ s.inputs }
  | none => .refused .noEncoding

/-- What the host does for a call, in place of the call (R73). -/
def runCall (c : HostCall) (s : State) : Host.Outcome State Fault Refusal :=
  match hostActions c with
  | .ok acts => .next { s with inputs := acts ++ s.inputs }
  | .error r => .refused r

end Sys2Proof.Machine
end

