-- ==== Sys2Proof/Machine/Operands.lean ====
section
/-! DEFINITION. Every operand form of the commands: raw values from data words, the clamp unit, the channel index, the channels
below a count or limit, and the little-endian byte pairs (spec/00_scope.md R10, R11; spec/30_encoding.md R63 to R65;
spec/40_channel_store.md R80). -/

namespace Sys2Proof.Machine

/-- `sext_32(w)`: a 32-bit word read as two's-complement, w when w < 2^31 and w − 2^32 otherwise (R10). -/
def sext32 (w : Word) : Int :=
  if w.toNat < 2 ^ 31 then (w.toNat : Int) else (w.toNat : Int) - 2 ^ 32

/-- The clamp unit (R80), with CFG_MIN and CFG_MAX as arguments. The comparisons are between integers (R10). -/
def clamp (cfgMin cfgMax : Half) (raw : Int) : Half :=
  if raw < (cfgMin.toNat : Int) then cfgMin
  else if raw > (cfgMax.toNat : Int) then cfgMax
  else BitVec.ofInt 16 raw

/-- The channel that IDX names: 0..13 name CH[IDX], 14..255 are out of bounds (R63). -/
def channelIndex (idx : BitVec 8) : Option (Fin 14) :=
  if h : idx.toNat < 14 then some ⟨idx.toNat, h⟩ else none

/-- The channels 0 .. n−1 in increasing order, as the loops of R82, R102 and R104 run through them. -/
def channelsBelow (n : Nat) : List (Fin 14) :=
  (List.finRange 14).filter (fun i => decide (i.val < n))

/-- v[7:0], the byte of LE16(v) that goes first (R11, R42). -/
def lowByte (v : Half) : Byte := v.extractLsb' 0 8

/-- v[15:8], the byte of LE16(v) that goes second (R11, R42). -/
def highByte (v : Half) : Byte := v.extractLsb' 8 8

/-- `RDLE16(lo, hi) = hi * 0x100 + lo` (R11). -/
def rdle16 (lo hi : Byte) : Half := hi ++ lo

end Sys2Proof.Machine
end

