-- ==== Sys2Proof/Machine/Flags.lean ====
section
/-! DEFINITION. IBUSENC has no flags, condition codes or sticky bits (spec/10_state.md R31). What stands in their place is the
response word of a command (spec/30_encoding.md R72, spec/60_exceptions.md R130). -/

namespace Sys2Proof.Machine

/-- The outcome of a command (R130). -/
inductive Status where
  | ok
  | outOfBounds
  | illegalCommand
  deriving DecidableEq, Repr

/-- The STATUS codes (R72, R130). -/
def Status.code : Status → BitVec 8
  | .ok => 0x00#8
  | .outOfBounds => 0x01#8
  | .illegalCommand => 0x02#8

/-- The response word `R = c<<8 | s` (R72). -/
def responseWord (status : Status) (count : BitVec 4) : Word :=
  (count.setWidth 32 <<< 8) ||| status.code.setWidth 32

end Sys2Proof.Machine
end

