-- ==== Sys2Proof/Machine/Ops.lean ====
section
/-! DEFINITION. The shared operations: responding (spec/00_scope.md R11), storing channels through the clamp unit
(spec/40_channel_store.md), the header writer, channel multiplexer, checksum unit and the encode operation
(spec/41_frame_encoder.md R100 to R104), and the read port (spec/20_memory.md R44). There is no exception to take and none to
return from (spec/60_exceptions.md R135, R136): `respond` is how a command ends, failed or not. -/

namespace Sys2Proof.Machine

/-- Give out one output. -/
def emit (o : Output) (s : State) : State := { s with outputs := s.outputs ++ [o] }

/-- `respond(status, count)`: end the command with its response word (R11, R72). -/
def respond (status : Status) (count : BitVec 4) (s : State) : State :=
  emit (.response (responseWord status count)) s

/-! ### The channel register file -/

/-- CH[i] <- clamp(raw) (R23, R80): the only way a command writes CH. -/
def storeChannel (i : Fin 14) (raw : Int) (s : State) : State :=
  { s with ch := s.ch.set i.val (clamp s.cfgMin s.cfgMax raw) }

/-- `for j in 0 .. N-1: CH[j] <- clamp(sext_32(DATA[j]))`, in increasing j (R82, R112). -/
def storeAll (cfgMin cfgMax : Half) (n : Nat) (data : DataWords) (ch : Channels) : Channels :=
  (channelsBelow n).foldl (fun ch j => ch.set j.val (clamp cfgMin cfgMax (sext32 data[j.val]))) ch

/-- That loop on the channel register file of a state. -/
def storeChannels (n : Nat) (data : DataWords) (s : State) : State :=
  { s with ch := storeAll s.cfgMin s.cfgMax n data s.ch }

/-! ### The frame buffer -/

/-- The header writer: FB[0] <- 0x20, FB[1] <- 0x40 (R101). -/
def writeHeader (fb : Frame) : Frame := (fb.set 0 Config.hdr0).set 1 Config.hdr1

/-- The channel multiplexer: FB[2+2i] <- v[7:0], FB[3+2i] <- v[15:8] (R100). -/
def writeField (i : Fin 14) (v : Half) (fb : Frame) : Frame :=
  (fb.set (2 + 2 * i.val) (lowByte v)).set (3 + 2 * i.val) (highByte v)

/-- The multiplexer on channels 0 .. limit−1, in increasing order (R104). Fields at or above the limit are not written. -/
def writeFields (limit : Nat) (ch : Channels) (fb : Frame) : Frame :=
  (channelsBelow limit).foldl (fun fb i => writeField i ch[i.val] fb) fb

/-- The checksum unit (R102): running 16-bit subtraction, low byte then high byte of each channel below the limit. -/
def checksum (limit : Nat) (ch : Channels) : Half :=
  (channelsBelow limit).foldl
    (fun c i => c - (lowByte ch[i.val]).setWidth 16 - (highByte ch[i.val]).setWidth 16) Config.ckInit

/-- FB[30] <- c[7:0], FB[31] <- c[15:8] (R104). -/
def writeChecksum (c : Half) (fb : Frame) : Frame := (fb.set 30 (lowByte c)).set 31 (highByte c)

/-- The encode operation `encode(limit)` (R104). -/
def encodeFrame (limit : Nat) (s : State) : State :=
  { s with fb := writeChecksum (checksum limit s.ch) (writeFields limit s.ch (writeHeader s.fb)) }

/-! ### The read port -/

/-- RDATA for a read of address A (R44): FB, then CH little-endian, then the reserved addresses, which read 0x00. -/
def readPort (s : State) (a : ReadAddr) : Byte :=
  if h : a.toNat ≤ 0x1F then s.fb[a.toNat]
  else if h : a.toNat ≤ 0x3B then
    if a.toNat % 2 = 0 then lowByte s.ch[(a.toNat - 0x20) / 2] else highByte s.ch[(a.toNat - 0x20) / 2]
  else 0x00#8

/-- The current frame as the read port returns it: FB[0..31], in offset order (R43, R146). -/
def frameSnapshot (s : State) : Frame := Vector.ofFn (fun k : Fin 32 => readPort s (BitVec.ofNat 6 k.val))

end Sys2Proof.Machine
end

