-- ==== Sys2Proof/Machine/Broadcaster.lean ====
section
/-! DEFINITION. The host agent's Broadcaster (spec/60_exceptions.md R141 to R149): construct, listen, start, stop, tick, time. -/

namespace Sys2Proof.Machine

/-- `stop()`: cancel the timer, empty L, enter Idle; in Idle a no-op (R145; log 12). -/
def stopBroadcast (s : State) : State :=
  match s.mode with
  | .idle => s
  | .running => { s with mode := .idle, listeners := [], timer := none }

/-- `|L| = MAX_LISTENERS`: the next `listen` fails (R143). -/
def listenersFull (s : State) : Bool := decide (s.listeners.length = s.maxListeners)

/-- `listen(cb)`: append cb, or fail with MaxListenersExceeded and change nothing (R143, R149). -/
def addListener (l : Listener) (s : State) : State :=
  if listenersFull s then emit .maxListenersExceeded s else { s with listeners := s.listeners ++ [l] }

/-- Step 4 of `start`: enter Running and start a timer with period BROADCAST_INTERVAL_MS (R144). Its first tick may come at
any time (R148). Step 1 has left Running, so a `start` always gets here in Idle; in Running there is no `start` to finish, and
the running timer keeps its last tick (R148; log 10). -/
def enterRunning (s : State) : State :=
  match s.mode with
  | .idle => { s with mode := .running, timer := some ⟨s.intervalMs, none⟩ }
  | .running => s

/-- Steps 3 and 4 of `start`, as what the host does next: FULLUPDATE if values are given, then enter Running (R144). -/
def startStoring (values : Option (List Int)) (s : State) : Host.Outcome State Fault Refusal :=
  match values with
  | none => .next { s with inputs := .enterRunning :: s.inputs }
  | some vs =>
    match assemble (.fullupdate (vs.map hostValue)) with
    | some ts => .next { s with inputs := issue ts ++ .enterRunning :: s.inputs }
    | none => .refused .tooManyValues

/-- `start(values?, cb?)` (R144): stop if Running, listen if cb is given, then steps 3 and 4. What happens when that `listen`
fails is HOST_START_ON_LISTEN_FAIL, left open (D23; log 11). -/
def start (values : Option (List Int)) (callback : Option Listener) (s : State) : Host.Outcome State Fault Refusal :=
  match callback with
  | none => startStoring values (stopBroadcast s)
  | some l =>
    if listenersFull (stopBroadcast s) then
      match Config.startOnListenFail with
      | .abortBeforeRunning => .next (addListener l (stopBroadcast s))
      | .continueToRunning => startStoring values (addListener l (stopBroadcast s))
    else startStoring values (addListener l (stopBroadcast s))

/-- Call the listeners in order, each with the current frame (R146). A listener that never returns leaves the tick stuck, and
one that throws has no meaning (93_implementation_defined.md section 1). -/
def deliver : List Listener → State → Host.Outcome State Fault Refusal
  | [], s => .next s
  | l :: ls, s =>
    match l.behaviour with
    | .returns => deliver ls (emit (.delivered l.id (frameSnapshot s)) s)
    | .neverReturns => .fault .listenerNeverReturns
    | .throws => .refused .listenerThrows

/-- A timer whose last tick is at least its period ago, or that has not ticked yet (R148). -/
def Timer.due (t : Timer) (clockMs : Nat) : Bool :=
  match t.lastTickMs with
  | none => true
  | some last => decide (last + t.periodMs ≤ clockMs)

/-- The runtime offers a tick. It fires only in Running, with the timer active and due; it issues no command (R146, R148). -/
def tick (s : State) : Host.Outcome State Fault Refusal :=
  match s.mode, s.timer with
  | .running, some t =>
    if t.due s.clockMs then
      deliver s.listeners { s with timer := some { t with lastTickMs := some s.clockMs } }
    else .next s
  | .running, none => .next s
  | .idle, _ => .next s

/-- Host time passes. -/
def elapse (ms : Nat) (s : State) : State := { s with clockMs := s.clockMs + ms }

/-- The integers of a configuration fit the 16-bit inputs and are well formed (R7, D2). -/
def hostConfigOk (c : HostConfig) : Bool :=
  decide (0 ≤ c.minValue ∧ c.minValue ≤ c.defaultValue ∧ c.defaultValue ≤ c.maxValue ∧ c.maxValue ≤ 0xFFFF)

/-- BROADCAST_INTERVAL_MS: max(configured, 7) (R141). -/
def broadcastInterval (configured : Int) : Nat := (max configured (Config.intervalFloorMs : Int)).toNat

/-- `construct(config)`: a new host instance, in Idle with no listeners, its parameters fixed from now on; it then resets the
block with the configuration (R141, R142, R161, R163; log 16). -/
def construct (c : HostConfig) (s : State) : Host.Outcome State Fault Refusal :=
  if hostConfigOk c then
    .next { s with
      mode := .idle, listeners := [], timer := none
      intervalMs := broadcastInterval c.broadcastIntervalMs, maxListeners := c.maxListeners
      inputs := .reset (BitVec.ofInt 16 c.minValue) (BitVec.ofInt 16 c.maxValue) (BitVec.ofInt 16 c.defaultValue)
        :: s.inputs }
  else .refused .illFormedConfiguration

end Sys2Proof.Machine
end

