-- ==== Sys2Proof/Machine/ChannelStore.lean ====
section
/-! DEFINITION. The channel-store commands SETALL and SETONE (spec/40_channel_store.md R82, R84). -/

namespace Sys2Proof.Machine

/-- SETALL(N, DATA) (R82). A term with N = 15 has no legal header, and answers as the pseudocode's first line does. -/
def execSetall (n : BitVec 4) (data : DataWords) (s : State) : Host.Outcome State Fault Refusal :=
  if countLegal n then .next (respond .ok n (storeChannels n.toNat data s))
  else .next (respond .illegalCommand 0#4 s)

/-- SETONE(IDX, DATA) (R84): out of bounds writes nothing (R131). -/
def execSetone (idx : BitVec 8) (data : DataWords) (s : State) : Host.Outcome State Fault Refusal :=
  match channelIndex idx with
  | none => .next (respond .outOfBounds 0#4 s)
  | some i => .next (respond .ok 0#4 (storeChannel i (sext32 data[0]) s))

end Sys2Proof.Machine
end

