-- ==== Sys2Proof/Machine/FrameEncoder.lean ====
section
/-! DEFINITION. The commands that encode: ENCODE, UPDATE and UPDCH (spec/41_frame_encoder.md R107, R112, R114). -/

namespace Sys2Proof.Machine

/-- ENCODE(N) (R107). A term with limit 15 has no legal header, and answers as the pseudocode's first line does. -/
def execEncode (limit : BitVec 4) (s : State) : Host.Outcome State Fault Refusal :=
  if countLegal limit then .next (respond .ok 0#4 (encodeFrame limit.toNat s))
  else .next (respond .illegalCommand 0#4 s)

/-- UPDATE(N, DATA) (R112): the stores, then encode with limit N, the count written. -/
def execUpdate (n : BitVec 4) (data : DataWords) (s : State) : Host.Outcome State Fault Refusal :=
  if countLegal n then .next (respond .ok n (encodeFrame n.toNat (storeChannels n.toNat data s)))
  else .next (respond .illegalCommand 0#4 s)

/-- UPDCH(IDX, DATA) (R114): the store, then a full encode, whose limit 14 is the spec's own decision D8 (log 6). -/
def execUpdch (idx : BitVec 8) (data : DataWords) (s : State) : Host.Outcome State Fault Refusal :=
  match channelIndex idx with
  | none => .next (respond .outOfBounds 0#4 s)
  | some i => .next (respond .ok 0#4 (encodeFrame 14 (storeChannel i (sext32 data[0]) s)))

end Sys2Proof.Machine
end

