-- ==== Sys2Proof/Machine/Dispatch.lean ====
section
/-! DEFINITION. The meaning of a command, one arm per row of spec/opcode_table.json. -/

namespace Sys2Proof.Machine

/-- What a decoded command does to the state (R82, R84, R107, R112, R114). -/
def exec (i : Instr) (s : State) : Host.Outcome State Fault Refusal :=
  match i with
  | .setall n data => Sys2Proof.Machine.execSetall n data s
  | .setone idx data => Sys2Proof.Machine.execSetone idx data s
  | .encode limit => Sys2Proof.Machine.execEncode limit s
  | .update n data => Sys2Proof.Machine.execUpdate n data s
  | .updch idx data => Sys2Proof.Machine.execUpdch idx data s

end Sys2Proof.Machine
end

