-- ==== Sys2Proof/Machine/CommandPort.lean ====
section
/-! DEFINITION. The command port: one transaction, decoded and executed as one step, ending in one response word
(spec/30_encoding.md R60, R68, R69). -/

namespace Sys2Proof.Machine

/-- One transaction: the legality check first (R69), then the command. An illegal header changes no state and answers
ILLEGAL_COMMAND with COUNT 0; the data words are not looked at (R68, R132). -/
def runCommand (t : Transaction) (s : State) : Host.Outcome State Fault Refusal :=
  match decode t with
  | .ok i => exec i s
  | .error _ => .next (respond .illegalCommand 0#4 s)

/-- One read: RDATA is given out, and nothing else changes (R44, R45). -/
def runRead (a : ReadAddr) (s : State) : Host.Outcome State Fault Refusal :=
  .next (emit (.rdata (readPort s a)) s)

end Sys2Proof.Machine
end

