-- ==== Sys2Proof/Machine/Reset.lean ====
section
/-! DEFINITION. Reset as one step of the block (spec/70_reset_and_hazards.md R160 to R162). -/

namespace Sys2Proof.Machine

/-- A well-formed configuration: CFG_MIN ≤ CFG_DEFAULT ≤ CFG_MAX (R7). -/
def configOk (cfgMin cfgMax cfgDefault : Half) : Bool :=
  decide (cfgMin.toNat ≤ cfgDefault.toNat) && decide (cfgDefault.toNat ≤ cfgMax.toNat)

/-- `RESET(cfg_min, cfg_max, cfg_default)`: load the latches, set every channel to CFG_DEFAULT, then encode(14) (R162). The
host's own state is no block state, so it stays (R161; log 9). -/
def resetBlock (cfgMin cfgMax cfgDefault : Half) (s : State) : State :=
  encodeFrame 14
    { s with cfgMin := cfgMin, cfgMax := cfgMax, cfgDefault := cfgDefault, ch := Vector.replicate 14 cfgDefault }

/-- The reset step; a configuration that is not well formed has none (R7, R161). -/
def runReset (cfgMin cfgMax cfgDefault : Half) (s : State) : Host.Outcome State Fault Refusal :=
  if configOk cfgMin cfgMax cfgDefault then .next (resetBlock cfgMin cfgMax cfgDefault s)
  else .refused .illFormedConfiguration

end Sys2Proof.Machine
end

