-- ==== Sys2Proof/Machine/HostAgent.lean ====
section
/-! DEFINITION. What one item of the total order does (spec/20_memory.md R48, spec/60_exceptions.md R140): one step of the block
(a command, a read, a reset) or of the host agent. -/

namespace Sys2Proof.Machine

/-- Take one input. -/
def perform (i : Input) (s : State) : Host.Outcome State Fault Refusal :=
  match i with
  | .command t => runCommand t s
  | .read a => runRead a s
  | .reset cfgMin cfgMax cfgDefault => runReset cfgMin cfgMax cfgDefault s
  | .construct c => construct c s
  | .asm line => runAsm line s
  | .call c => runCall c s
  | .listen l => .next (addListener l s)
  | .start values callback => start values callback s
  | .enterRunning => .next (enterRunning s)
  | .stop => .next (stopBroadcast s)
  | .tick => tick s
  | .elapse ms => .next (elapse ms s)

/-- The next item of the total order, if there is one. With none, the block stays idle (R160): the state does not change. -/
def takeInput (s : State) : Host.Outcome State Fault Refusal :=
  match s.inputs with
  | [] => .next s
  | i :: rest => perform i { s with inputs := rest }

end Sys2Proof.Machine
end

