-- ==== Sys2Proof/Machine/Step.lean ====
section
/-! DEFINITION. One step of the machine, and where its next command comes from. The block fetches nothing (spec/20_memory.md
R50): the next command is the next transaction on the command port (spec/30_encoding.md R60). -/

namespace Sys2Proof.Machine

/-- One step: take the next item of the total order (R48). -/
def step (s : State) : Host.Outcome State Fault Refusal := takeInput s

/-- `s` with the transaction of an opcode-table word as the next thing on the command port (log 4, log 19). -/
def State.withFetchWord (s : State) (nbits w : Nat) : State :=
  { s with inputs := .command (tableTransaction nbits w) :: s.inputs }

end Sys2Proof.Machine
end

