-- ==== Sys2Proof/Safety.lean ====
section
/-! DEFINITION. The predicates the claims are stated in: coherent fields and a valid checksum (spec/10_state.md R29), the byte
sum of the checksum laws (spec/41_frame_encoder.md R103), and the invariant of the block and of the host agent (spec/10_state.md R24,
spec/41_frame_encoder.md R106, spec/60_exceptions.md R141, R142). None of them is state. -/

namespace Sys2Proof.Machine

/-- Channel field i of the frame, decoded little-endian: RDLE16(FB[2+2i], FB[3+2i]) (R29, R42). -/
def fieldValue (s : State) (i : Fin 14) : Half := rdle16 s.fb[2 + 2 * i.val] s.fb[3 + 2 * i.val]

/-- The stored checksum: RDLE16(FB[30], FB[31]) (R29, R42). -/
def storedChecksum (s : State) : Half := rdle16 s.fb[30] s.fb[31]

/-- The sum of the frame bytes at offsets below `k`. -/
def frameSum (k : Nat) (fb : Frame) : Nat := ((fb.toList.take k).map BitVec.toNat).sum

/-- coherent(i): the frame's field i equals CH[i] (R29). -/
abbrev coherent (s : State) (i : Fin 14) : Prop := fieldValue s i = s.ch[i.val]

/-- ck_valid: the stored checksum is (0xFFFF − sum of FB[0..29]) mod 0x10000 (R29). -/
abbrev ckValid (s : State) : Prop := ((storedChecksum s).toNat : Int) = (0xFFFF - (frameSum 30 s.fb : Int)) % 0x10000

/-- The byte sum of one channel, CH[i][7:0] + CH[i][15:8]. -/
def channelBytes (v : Half) : Nat := (lowByte v).toNat + (highByte v).toNat

/-- `S(limit) = 0x20 + 0x40 + Σ_{i<limit} (CH[i][7:0] + CH[i][15:8])` (R103). -/
def byteSum (limit : Nat) (ch : Channels) : Nat :=
  0x20 + 0x40 + ((channelsBelow limit).map (fun i => channelBytes ch[i.val])).sum

/-- A 16-bit value within the configured range. -/
abbrev inRange (s : State) (v : Half) : Prop := s.cfgMin.toNat ≤ v.toNat ∧ v.toNat ≤ s.cfgMax.toNat

/-- What holds of the block in every reachable state. -/
structure BlockInv (s : State) : Prop where
  /-- The latches hold a well-formed configuration (R7, R21). -/
  latches : configOk s.cfgMin s.cfgMax s.cfgDefault = true
  /-- CFG_MIN ≤ CH[i] ≤ CFG_MAX (R24). -/
  channels : ∀ i : Fin 14, inRange s s.ch[i.val]
  /-- The header bytes (R101; reset and every encode write them). -/
  header : s.fb[0] = 0x20#8 ∧ s.fb[1] = 0x40#8
  /-- Every field holds a value CH held at reset or at an encode, so it is in range too (R28, R106). -/
  fields : ∀ i : Fin 14, inRange s (fieldValue s i)
  /-- The stored checksum covers the header and the fields below some limit (R104, R106). -/
  checksum : ∃ limit, limit ≤ 14 ∧ (storedChecksum s).toNat = 0xFFFF - frameSum (2 + 2 * limit) s.fb

/-- What holds of the host agent in every reachable state. -/
structure HostInv (s : State) : Prop where
  /-- |L| ≤ MAX_LISTENERS (R142). -/
  listeners : s.listeners.length ≤ s.maxListeners
  /-- The timer is active exactly when the mode is Running (R142). -/
  timer : s.mode = .running ↔ s.timer.isSome = true
  /-- BROADCAST_INTERVAL_MS ≥ 7 (R141). -/
  interval : 7 ≤ s.intervalMs
  /-- The timer runs with that period (R144), and its last tick is not in the future. -/
  period : ∀ t, s.timer = some t → t.periodMs = s.intervalMs ∧ ∀ last, t.lastTickMs = some last → last ≤ s.clockMs

/-- The invariant of the machine. -/
structure Inv (s : State) : Prop where
  block : BlockInv s
  host  : HostInv s

end Sys2Proof.Machine
end

