-- ==== Sys2Proof/Certificates/Slice0/Obligations.lean ====
section
/-! DEFINITION. The statements for the provers: what the commands, the read port, reset, the decoder and the host agent do,
from the numbered rules of spec/. -/

open Sys2Proof Sys2Proof.Machine

/-! ### Decoding and encoding -/

/-- A well-formed command decodes back from its encoding, and a decoded command is well formed and encodes back to the header
it came from, with all its data words unless it is ENCODE, which reads none (R61, R62, R65, R67). -/
def Obligations.DecodeAndEncodeAgree : Prop :=
  (∀ i : Instr, i.wf = true → decode (encode i) = .ok i) ∧
  (∀ (t : Transaction) (i : Instr), decode t = .ok i →
    i.wf = true ∧ (encode i).header = t.header ∧ ((∀ limit, i ≠ .encode limit) → encode i = t))

/-- R67: a header is a command exactly when its bits under the row's mask are the row's match and, for SETALL, ENCODE and
UPDATE, N ≤ 14; the operands are the fields H[11:8] and H[23:16] and the data words. -/
def Obligations.OpcodeMapMatchAndMask : Prop :=
  ∀ t : Transaction,
    (∀ n d, decode t = .ok (.setall n d) ↔
      t.header &&& 0xFFFFF0FF#32 = 0x10000000#32 ∧ n = t.header.extractLsb' 8 4 ∧ n.toNat ≤ 14 ∧ d = t.data) ∧
    (∀ idx d, decode t = .ok (.setone idx d) ↔
      t.header &&& 0xFF00FFFF#32 = 0x20000000#32 ∧ idx = t.header.extractLsb' 16 8 ∧ d = t.data) ∧
    (∀ n, decode t = .ok (.encode n) ↔
      t.header &&& 0xFFFFF0FF#32 = 0x30000000#32 ∧ n = t.header.extractLsb' 8 4 ∧ n.toNat ≤ 14) ∧
    (∀ n d, decode t = .ok (.update n d) ↔
      t.header &&& 0xFFFFF0FF#32 = 0x40000000#32 ∧ n = t.header.extractLsb' 8 4 ∧ n.toNat ≤ 14 ∧ d = t.data) ∧
    (∀ idx d, decode t = .ok (.updch idx d) ↔
      t.header &&& 0xFF00FFFF#32 = 0x50000000#32 ∧ idx = t.header.extractLsb' 16 8 ∧ d = t.data)

/-- R68: the decoder refuses exactly the headers the rule lists, and a transaction with such a header changes nothing and
answers ILLEGAL_COMMAND with COUNT 0, whatever its data words. -/
def Obligations.IllegalHeadersChangeNothing : Prop :=
  (∀ t : Transaction, (∃ e, decode t = .error e) ↔
    ((t.header.extractLsb' 28 4).toNat = 0 ∨ 6 ≤ (t.header.extractLsb' 28 4).toNat) ∨
    (t.header.extractLsb' 24 4 ≠ 0#4 ∨ t.header.extractLsb' 12 4 ≠ 0#4 ∨ t.header.extractLsb' 0 8 ≠ 0#8) ∨
    ((t.header.extractLsb' 28 4 = 1#4 ∨ t.header.extractLsb' 28 4 = 3#4 ∨ t.header.extractLsb' 28 4 = 4#4) ∧
      t.header.extractLsb' 16 8 ≠ 0#8) ∨
    ((t.header.extractLsb' 28 4 = 2#4 ∨ t.header.extractLsb' 28 4 = 5#4) ∧ t.header.extractLsb' 8 4 ≠ 0#4) ∨
    ((t.header.extractLsb' 28 4 = 1#4 ∨ t.header.extractLsb' 28 4 = 3#4 ∨ t.header.extractLsb' 28 4 = 4#4) ∧
      t.header.extractLsb' 8 4 = 15#4)) ∧
  (∀ (s : State) (t : Transaction) (rest : List Input), s.inputs = .command t :: rest → (∃ e, decode t = .error e) →
    step s = .next { s with inputs := rest, outputs := s.outputs ++ [.response 0x00000002#32] })

/-- Words written out from the encodings of R82, R84, R107, R112 and R114, and four illegal ones (R68, R69). -/
def Obligations.WrittenOutWordsDecode : Prop :=
  decode ⟨0b0001_0000_00000000_0000_0010_00000000#32, zeroData⟩ = .ok (.setall 2#4 zeroData) ∧
  decode ⟨0b0010_0000_00001101_0000_0000_00000000#32, zeroData⟩ = .ok (.setone 13#8 zeroData) ∧
  decode ⟨0b0011_0000_00000000_0000_1110_00000000#32, zeroData⟩ = .ok (.encode 14#4) ∧
  decode ⟨0b0100_0000_00000000_0000_0011_00000000#32, zeroData⟩ = .ok (.update 3#4 zeroData) ∧
  decode ⟨0b0101_0000_11111111_0000_0000_00000000#32, zeroData⟩ = .ok (.updch 255#8 zeroData) ∧
  decodeTableWord 32 0x10000F00 = none ∧ decodeTableWord 32 0x10010100 = none ∧
  decodeTableWord 32 0x2E0E0100 = none ∧ decodeTableWord 32 0 = none

/-! ### The step -/

/-- When the transaction on the command port decodes to a command, the step is that command's meaning, on the state in which
the transaction has been taken (R48, R60, R69). -/
def Obligations.StepRunsTheDecodedCommand : Prop :=
  ∀ (s : State) (t : Transaction) (rest : List Input) (i : Instr),
    s.inputs = .command t :: rest → decode t = .ok i → step s = exec i { s with inputs := rest }

/-- R72, R130 and R134: every transaction completes, with exactly one response. STATUS is ILLEGAL_COMMAND exactly for an
illegal header, OUT_OF_BOUNDS exactly for a legal SETONE or UPDCH with IDX ≥ 14, and OK otherwise; COUNT is N for SETALL and
UPDATE with OK and 0 otherwise; bits 31..12 are 0; and a command that fails changes neither CH nor FB. Nothing but CH and FB
changes in any case. -/
def Obligations.EveryCommandEndsWithOneResponse : Prop :=
  ∀ (s : State) (t : Transaction) (rest : List Input), s.inputs = .command t :: rest →
    ∃ (ch : Channels) (fb : Frame) (w : Word),
      step s = .next { s with ch := ch, fb := fb, inputs := rest, outputs := s.outputs ++ [.response w] } ∧
      w.extractLsb' 12 20 = 0#20 ∧
      (w.extractLsb' 0 8 = 2#8 ↔ ∃ e, decode t = .error e) ∧
      (w.extractLsb' 0 8 = 1#8 ↔ ∃ idx d, 14 ≤ idx.toNat ∧ (decode t = .ok (.setone idx d) ∨ decode t = .ok (.updch idx d))) ∧
      (w.extractLsb' 0 8 = 0#8 ∨ w.extractLsb' 0 8 = 1#8 ∨ w.extractLsb' 0 8 = 2#8) ∧
      (w.extractLsb' 0 8 ≠ 0#8 → ch = s.ch ∧ fb = s.fb) ∧
      w.extractLsb' 8 4 =
        if w.extractLsb' 0 8 = 0#8 ∧ (t.header.extractLsb' 28 4 = 1#4 ∨ t.header.extractLsb' 28 4 = 4#4)
        then t.header.extractLsb' 8 4 else 0#4

/-- R136: after a command that fails (an illegal header, or SETONE or UPDCH with IDX ≥ 14), any later run gives exactly what
it would give had the command never been issued, but for its one response among the outputs. -/
def Obligations.FailedCommandIsAsIfNeverIssued : Prop :=
  ∀ (s u : State) (t : Transaction) (rest : List Input) (n : Nat), s.inputs = .command t :: rest →
    ((∃ e, decode t = .error e) ∨
      ∃ idx d, 14 ≤ idx.toNat ∧ (decode t = .ok (.setone idx d) ∨ decode t = .ok (.updch idx d))) →
    Host.Core.run core n { s with inputs := rest, outputs := [] } = .next u →
    ∃ w : Word, (w = 0x00000001#32 ∨ w = 0x00000002#32) ∧
      Host.Core.run core (n + 1) s = .next { u with outputs := s.outputs ++ [.response w] ++ u.outputs }

/-- The data words a command does not use have no effect on state or response: with equal headers, and equal DATA[j] for j < N
(SETALL, UPDATE) or j = 0 (SETONE, UPDCH), two transactions do the same in every state (R65). -/
def Obligations.UnusedDataWordsHaveNoEffect : Prop :=
  ∀ (s : State) (t t' : Transaction) (rest : List Input), t.header = t'.header →
    (∀ j : Fin 14,
      (((t.header.extractLsb' 28 4 = 1#4 ∨ t.header.extractLsb' 28 4 = 4#4) ∧ j.val < (t.header.extractLsb' 8 4).toNat) ∨
        ((t.header.extractLsb' 28 4 = 2#4 ∨ t.header.extractLsb' 28 4 = 5#4) ∧ j.val = 0)) → t.data[j.val] = t'.data[j.val]) →
    step { s with inputs := .command t :: rest } = step { s with inputs := .command t' :: rest }

/-- With nothing on the ports the block stays as it is (the model's own choice, log 2; R160 has the port idle). -/
def Obligations.IdleMachineStaysAsItIs : Prop :=
  ∀ s : State, s.inputs = [] → step s = .next s

/-- R31: no output is ever read back. A machine that has given out more before takes the same step, whatever the input, with
the same new outputs; it stops where the other stops, for the same reason. -/
def Obligations.OutputsAreNeverReadBack : Prop :=
  ∀ (s : State) (before : List Output),
    (∀ t, step s = .next t →
      step { s with outputs := before ++ s.outputs } = .next { t with outputs := before ++ t.outputs }) ∧
    (∀ r, step s = .fault r → step { s with outputs := before ++ s.outputs } = .fault r) ∧
    (∀ r, step s = .refused r → step { s with outputs := before ++ s.outputs } = .refused r)

/-! ### The clamp unit -/

/-- R80: CFG_MIN below the range, CFG_MAX above it, the value itself within it. -/
def Obligations.ClampUnitValue : Prop :=
  ∀ (cfgMin cfgMax : Half) (raw : Int),
    (raw < cfgMin.toNat → clamp cfgMin cfgMax raw = cfgMin) ∧
    (¬ raw < cfgMin.toNat → raw > cfgMax.toNat → clamp cfgMin cfgMax raw = cfgMax) ∧
    (¬ raw < cfgMin.toNat → ¬ raw > cfgMax.toNat → ((clamp cfgMin cfgMax raw).toNat : Int) = raw)

/-- R81: within the range; the identity on the range; idempotent; monotone; and the rule's values under the default
configuration. The range law asks for CFG_MIN ≤ CFG_MAX, which every well-formed configuration has (R7). -/
def Obligations.ClampUnitLaws : Prop :=
  (∀ (cfgMin cfgMax : Half) (raw raw' : Int), cfgMin.toNat ≤ cfgMax.toNat →
    (cfgMin.toNat ≤ (clamp cfgMin cfgMax raw).toNat ∧ (clamp cfgMin cfgMax raw).toNat ≤ cfgMax.toNat) ∧
    ((cfgMin.toNat : Int) ≤ raw → raw ≤ cfgMax.toNat → ((clamp cfgMin cfgMax raw).toNat : Int) = raw) ∧
    clamp cfgMin cfgMax ((clamp cfgMin cfgMax raw).toNat : Int) = clamp cfgMin cfgMax raw ∧
    (raw ≤ raw' → (clamp cfgMin cfgMax raw).toNat ≤ (clamp cfgMin cfgMax raw').toNat)) ∧
  clamp 1000#16 2000#16 999 = 1000#16 ∧ clamp 1000#16 2000#16 1000 = 1000#16 ∧
  clamp 1000#16 2000#16 1500 = 1500#16 ∧ clamp 1000#16 2000#16 2000 = 2000#16 ∧
  clamp 1000#16 2000#16 2001 = 2000#16 ∧ clamp 1000#16 2000#16 (-1) = 1000#16 ∧
  clamp 1000#16 2000#16 (-2 ^ 31) = 1000#16 ∧ clamp 1000#16 2000#16 (2 ^ 31 - 1) = 2000#16

/-! ### The commands -/

/-- R82: SETALL with N ≤ 14 answers OK with COUNT N, sets CH[j] to the clamped DATA[j] for j < N and keeps the others; FB,
the latches and everything else stay. A term with N = 15 answers ILLEGAL_COMMAND and changes nothing. -/
def Obligations.SetallStoresClampedChannels : Prop :=
  ∀ (n : BitVec 4) (data : DataWords) (s : State),
    (n.toNat ≤ 14 → ∃ ch : Channels,
      exec (.setall n data) s =
        .next { s with ch := ch, outputs := s.outputs ++ [.response (BitVec.ofNat 32 (n.toNat * 0x100))] } ∧
      ∀ j : Fin 14, ch[j.val] = if j.val < n.toNat then clamp s.cfgMin s.cfgMax (sext32 data[j.val]) else s.ch[j.val]) ∧
    (n.toNat = 15 →
      exec (.setall n data) s = .next { s with outputs := s.outputs ++ [.response 0x00000002#32] })

/-- R84 and R131: SETONE with IDX in 0..13 answers OK and sets CH[IDX] to the clamped DATA[0], every other channel, FB, the
latches and everything else staying; with IDX in 14..255 it answers OUT_OF_BOUNDS and changes nothing. -/
def Obligations.SetoneStoresOneClampedChannel : Prop :=
  ∀ (idx : BitVec 8) (data : DataWords) (s : State),
    (idx.toNat < 14 → ∃ ch : Channels,
      exec (.setone idx data) s = .next { s with ch := ch, outputs := s.outputs ++ [.response 0#32] } ∧
      ∀ j : Fin 14, ch[j.val] = if j.val = idx.toNat then clamp s.cfgMin s.cfgMax (sext32 data[0]) else s.ch[j.val]) ∧
    (14 ≤ idx.toNat →
      exec (.setone idx data) s = .next { s with outputs := s.outputs ++ [.response 0x00000001#32] })

/-- R104 and R107: ENCODE with limit ≤ 14 answers OK with COUNT 0 and rewrites FB: the header bytes, the little-endian pairs
of the channels below the limit, the pair at offsets 30 and 31 with the checksum of those channels; the pairs at and above the
limit, CH, the latches and everything else stay. A term with limit 15 answers ILLEGAL_COMMAND and changes nothing. -/
def Obligations.EncodeRewritesTheFrame : Prop :=
  ∀ (limit : BitVec 4) (s : State),
    (limit.toNat ≤ 14 → ∃ fb : Frame,
      exec (.encode limit) s = .next { s with fb := fb, outputs := s.outputs ++ [.response 0#32] } ∧
      fb[0] = 0x20#8 ∧ fb[1] = 0x40#8 ∧
      (∀ i : Fin 14, i.val < limit.toNat →
        fb[2 + 2 * i.val] = s.ch[i.val].extractLsb' 0 8 ∧ fb[3 + 2 * i.val] = s.ch[i.val].extractLsb' 8 8) ∧
      (∀ i : Fin 14, limit.toNat ≤ i.val →
        fb[2 + 2 * i.val] = s.fb[2 + 2 * i.val] ∧ fb[3 + 2 * i.val] = s.fb[3 + 2 * i.val]) ∧
      fb[30] = (checksum limit.toNat s.ch).extractLsb' 0 8 ∧ fb[31] = (checksum limit.toNat s.ch).extractLsb' 8 8) ∧
    (limit.toNat = 15 →
      exec (.encode limit) s = .next { s with outputs := s.outputs ++ [.response 0x00000002#32] })

/-- R112: UPDATE with N ≤ 14 answers OK with COUNT N; CH is as after SETALL of the same words, and FB as after an encode of
that CH with limit N; everything else stays. A term with N = 15 answers ILLEGAL_COMMAND and changes nothing. -/
def Obligations.UpdateStoresThenEncodes : Prop :=
  ∀ (n : BitVec 4) (data : DataWords) (s : State),
    (n.toNat ≤ 14 → ∃ (ch : Channels) (fb : Frame),
      exec (.update n data) s =
        .next { s with ch := ch, fb := fb, outputs := s.outputs ++ [.response (BitVec.ofNat 32 (n.toNat * 0x100))] } ∧
      (∀ j : Fin 14, ch[j.val] = if j.val < n.toNat then clamp s.cfgMin s.cfgMax (sext32 data[j.val]) else s.ch[j.val]) ∧
      fb[0] = 0x20#8 ∧ fb[1] = 0x40#8 ∧
      (∀ i : Fin 14, i.val < n.toNat →
        fb[2 + 2 * i.val] = ch[i.val].extractLsb' 0 8 ∧ fb[3 + 2 * i.val] = ch[i.val].extractLsb' 8 8) ∧
      (∀ i : Fin 14, n.toNat ≤ i.val →
        fb[2 + 2 * i.val] = s.fb[2 + 2 * i.val] ∧ fb[3 + 2 * i.val] = s.fb[3 + 2 * i.val]) ∧
      fb[30] = (checksum n.toNat ch).extractLsb' 0 8 ∧ fb[31] = (checksum n.toNat ch).extractLsb' 8 8) ∧
    (n.toNat = 15 →
      exec (.update n data) s = .next { s with outputs := s.outputs ++ [.response 0x00000002#32] })

/-- R114: UPDCH with IDX in 0..13 answers OK; CH[IDX] becomes the clamped DATA[0] and the other channels stay; FB becomes the
full encode of that CH, with every field coherent and the checksum valid; everything else stays. With IDX in 14..255 it answers
OUT_OF_BOUNDS and changes nothing. (The limit 14 is decision D8 of the spec, log 6.) -/
def Obligations.UpdchStoresThenFullyEncodes : Prop :=
  ∀ (idx : BitVec 8) (data : DataWords) (s : State),
    (idx.toNat < 14 → ∃ (ch : Channels) (fb : Frame),
      exec (.updch idx data) s = .next { s with ch := ch, fb := fb, outputs := s.outputs ++ [.response 0#32] } ∧
      (∀ j : Fin 14, ch[j.val] = if j.val = idx.toNat then clamp s.cfgMin s.cfgMax (sext32 data[0]) else s.ch[j.val]) ∧
      fb[0] = 0x20#8 ∧ fb[1] = 0x40#8 ∧
      (∀ i : Fin 14,
        fb[2 + 2 * i.val] = ch[i.val].extractLsb' 0 8 ∧ fb[3 + 2 * i.val] = ch[i.val].extractLsb' 8 8) ∧
      fb[30] = (checksum 14 ch).extractLsb' 0 8 ∧ fb[31] = (checksum 14 ch).extractLsb' 8 8 ∧
      ckValid { s with ch := ch, fb := fb }) ∧
    (14 ≤ idx.toNat →
      exec (.updch idx data) s = .next { s with outputs := s.outputs ++ [.response 0x00000001#32] })

/-- What a command leaves unchanged, through the read port. SETALL N: every address outside the 2N bytes of CH[0..N−1]. SETONE
IDX: every address outside the two bytes of CH[IDX]. ENCODE N: every address outside the header, the checksum and the 2N bytes
of fields 0..N−1. UPDATE N: outside both. UPDCH IDX: outside the frame and the two bytes of CH[IDX]. (R23, R26, R44, R47) -/
def Obligations.ReadPortFrameOfCommands : Prop :=
  ∀ (s t : State) (a : ReadAddr),
    (∀ n data, exec (.setall n data) s = .next t →
      ¬ (0x20 ≤ a.toNat ∧ a.toNat < 0x20 + 2 * n.toNat) → readPort t a = readPort s a) ∧
    (∀ idx data, exec (.setone idx data) s = .next t →
      ¬ (a.toNat = 0x20 + 2 * idx.toNat ∨ a.toNat = 0x21 + 2 * idx.toNat) → readPort t a = readPort s a) ∧
    (∀ n, exec (.encode n) s = .next t →
      ¬ (a.toNat < 2 + 2 * n.toNat ∨ a.toNat = 30 ∨ a.toNat = 31) → readPort t a = readPort s a) ∧
    (∀ n data, exec (.update n data) s = .next t →
      ¬ (a.toNat < 2 + 2 * n.toNat ∨ a.toNat = 30 ∨ a.toNat = 31) →
      ¬ (0x20 ≤ a.toNat ∧ a.toNat < 0x20 + 2 * n.toNat) → readPort t a = readPort s a) ∧
    (∀ idx data, exec (.updch idx data) s = .next t →
      0x20 ≤ a.toNat → ¬ (a.toNat = 0x20 + 2 * idx.toNat ∨ a.toNat = 0x21 + 2 * idx.toNat) →
      readPort t a = readPort s a)

/-- After an UPDATE of N values, decoding the channel fields below N gives the clamped values; with N = 14 the frame is valid
too (R105, R112). -/
def Obligations.UpdateRoundTrip : Prop :=
  ∀ (n : BitVec 4) (data : DataWords) (s : State), n.toNat ≤ 14 →
    ∃ t, exec (.update n data) s = .next t ∧
      (∀ i : Fin 14, i.val < n.toNat → fieldValue t i = clamp s.cfgMin s.cfgMax (sext32 data[i.val])) ∧
      (n = 14#4 → ckValid t)

/-- UPDATE leaves CH and FB as SETALL of the same words followed by ENCODE with the same count does, and UPDCH as SETONE
followed by ENCODE 14 does (R83, R112, R114). -/
def Obligations.CombinedCommandsAreStoreThenEncode : Prop :=
  (∀ (n : BitVec 4) (data : DataWords) (s : State), n.toNat ≤ 14 →
    ∃ t u v, exec (.setall n data) s = .next t ∧ exec (.encode n) t = .next u ∧ exec (.update n data) s = .next v ∧
      v.ch = u.ch ∧ v.fb = u.fb ∧ t.fb = s.fb) ∧
  (∀ (idx : BitVec 8) (data : DataWords) (s : State), idx.toNat < 14 →
    ∃ t u v, exec (.setone idx data) s = .next t ∧ exec (.encode 14#4) t = .next u ∧ exec (.updch idx data) s = .next v ∧
      v.ch = u.ch ∧ v.fb = u.fb ∧ t.fb = s.fb)

/-- Repeating an ENCODE with no store between gives the same FB (R107, corner cases). -/
def Obligations.RepeatedEncodeGivesTheSameFrame : Prop :=
  ∀ (limit : BitVec 4) (s : State),
    ∃ t u, exec (.encode limit) s = .next t ∧ exec (.encode limit) t = .next u ∧ u.fb = t.fb ∧ u.ch = t.ch

/-! ### The checksum unit and the frame -/

/-- R102: the running subtraction from 0xFF9F, channel by channel in increasing order, low byte then high byte. -/
def Obligations.ChecksumRunningSubtraction : Prop :=
  ∀ ch : Channels, checksum 0 ch = 0xFFFF#16 - 0x20#16 - 0x40#16 ∧
    ∀ i : Fin 14, checksum (i.val + 1) ch =
      (checksum i.val ch - (ch[i.val].extractLsb' 0 8).setWidth 16) - (ch[i.val].extractLsb' 8 8).setWidth 16

/-- R103: (a) the checksum is (0xFFFF − S) mod 0x10000; (b) S ≤ 7236, so every intermediate value is 0xFFFF − S without a
wrap; (c) it is the ones' complement of S, one less than the two's-complement negation; (d), (e) its two values. -/
def Obligations.ChecksumUnitLaws : Prop :=
  (∀ (ch : Channels) (limit : Nat), limit ≤ 14 →
    ((checksum limit ch).toNat : Int) = (0xFFFF - (byteSum limit ch : Int)) % 0x10000 ∧
    byteSum limit ch ≤ 7236 ∧ (checksum limit ch).toNat + byteSum limit ch = 0xFFFF ∧
    checksum limit ch = ~~~(BitVec.ofNat 16 (byteSum limit ch)) ∧
    ((checksum limit ch).toNat : Int) + 1 = (0x10000 - (byteSum limit ch : Int)) % 0x10000) ∧
  (∀ ch : Channels, checksum 0 ch = 0xFF9F#16) ∧
  checksum 14 (Vector.replicate 14 1500#16) = 0xF351#16

/-- R105: a full encode completes, and its frame has the header bytes, coherent fields, and a valid checksum. -/
def Obligations.FullEncodeMakesAValidFrame : Prop :=
  ∀ s : State, ∃ t, exec (.encode 14#4) s = .next t ∧
    t.fb[0] = 0x20#8 ∧ t.fb[1] = 0x40#8 ∧ (∀ i, coherent t i) ∧ ckValid t ∧ ∀ i : Fin 14, fieldValue t i = s.ch[i.val]

/-- R106: after an encode with limit < 14 the header and the fields below the limit are as after a full encode, the others
hold what they held, the checksum is that of the limit, and the frame is valid exactly when every stale byte is 0x00; in a
state of the invariant with CFG_MIN ≥ 1 it never is. -/
def Obligations.PartialEncodeChecksumValidity : Prop :=
  ∀ (limit : BitVec 4) (s : State), limit.toNat < 14 →
    ∃ t, exec (.encode limit) s = .next t ∧
      t.fb[0] = 0x20#8 ∧ t.fb[1] = 0x40#8 ∧
      (∀ i : Fin 14, i.val < limit.toNat → coherent t i ∧ fieldValue t i = s.ch[i.val]) ∧
      (∀ i : Fin 14, limit.toNat ≤ i.val → fieldValue t i = fieldValue s i) ∧
      storedChecksum t = checksum limit.toNat s.ch ∧
      (ckValid t ↔ ∀ k : Fin 32, 2 + 2 * limit.toNat ≤ k.val → k.val ≤ 29 → t.fb[k.val] = 0x00#8) ∧
      (ckValid t ↔ ∀ i : Fin 14, limit.toNat ≤ i.val → fieldValue s i = 0x0000#16) ∧
      (BlockInv s → 1 ≤ s.cfgMin.toNat → ¬ ckValid t)

/-- A channel field of the frame changes only in a step that resets or encodes it, and then it becomes CH[i] as that step
leaves it; in every other step it keeps its value (R28). -/
def Obligations.FieldsFollowOnlyEncodes : Prop :=
  ∀ (s t : State) (input : Input) (rest : List Input) (i : Fin 14),
    s.inputs = input :: rest → step s = .next t →
    fieldValue t i = fieldValue s i ∨
    (fieldValue t i = t.ch[i.val] ∧
      ((∃ a b c, input = .reset a b c) ∨
       (∃ tr n, input = .command tr ∧ decode tr = .ok (.encode n) ∧ i.val < n.toNat) ∨
       (∃ tr n d, input = .command tr ∧ decode tr = .ok (.update n d) ∧ i.val < n.toNat) ∨
       (∃ tr idx d, input = .command tr ∧ decode tr = .ok (.updch idx d))))

/-! ### Who writes what -/

/-- R20: reset loads the three latches from its inputs; no other input writes a latch, so no command does; and the read port
does not expose them. -/
def Obligations.OnlyResetWritesTheLatches : Prop :=
  (∀ (s : State) (a b c : Half) (rest : List Input), s.inputs = .reset a b c :: rest → configOk a b c = true →
    ∃ t, step s = .next t ∧ t.cfgMin = a ∧ t.cfgMax = b ∧ t.cfgDefault = c) ∧
  (∀ (s t : State) (input : Input) (rest : List Input), s.inputs = input :: rest →
    (∀ a b c, input ≠ .reset a b c) → step s = .next t →
    t.cfgMin = s.cfgMin ∧ t.cfgMax = s.cfgMax ∧ t.cfgDefault = s.cfgDefault) ∧
  (∀ (s : State) (a b c : Half) (addr : ReadAddr),
    readPort { s with cfgMin := a, cfgMax := b, cfgDefault := c } addr = readPort s addr)

/-- CH changes only in a step that takes a reset or a command that decodes to SETALL, SETONE, UPDATE or UPDCH (R23). -/
def Obligations.OnlyStoringCommandsWriteChannels : Prop :=
  ∀ (s t : State) (input : Input) (rest : List Input), s.inputs = input :: rest → step s = .next t → t.ch ≠ s.ch →
    (∃ a b c, input = .reset a b c) ∨
    (∃ tr, input = .command tr ∧ ((∃ n d, decode tr = .ok (.setall n d)) ∨ (∃ i d, decode tr = .ok (.setone i d)) ∨
      (∃ n d, decode tr = .ok (.update n d)) ∨ (∃ i d, decode tr = .ok (.updch i d))))

/-- FB changes only in a step that takes a reset or a command that decodes to ENCODE, UPDATE or UPDCH (R26). -/
def Obligations.OnlyEncodingCommandsWriteTheFrame : Prop :=
  ∀ (s t : State) (input : Input) (rest : List Input), s.inputs = input :: rest → step s = .next t → t.fb ≠ s.fb →
    (∃ a b c, input = .reset a b c) ∨
    (∃ tr, input = .command tr ∧ ((∃ n, decode tr = .ok (.encode n)) ∨
      (∃ n d, decode tr = .ok (.update n d)) ∨ (∃ i d, decode tr = .ok (.updch i d))))

/-! ### Invariants -/

/-- Every step keeps the invariant: a well-formed configuration, channels and frame fields in range, the header bytes, a
checksum that covers some limit, at most MAX_LISTENERS listeners, a timer exactly in Running with the host's period. -/
def Obligations.EveryStepKeepsTheInvariant : Prop :=
  ∀ s t : State, Inv s → step s = .next t → Inv t

/-- The state after reset meets the invariant. -/
def Obligations.ResetStateMeetsTheInvariant : Prop := Inv State.reset

/-- R24: whatever the host does from reset on, and after any number of steps, CFG_MIN ≤ CH[i] ≤ CFG_MAX. -/
def Obligations.ReachableChannelsStayInRange : Prop :=
  ∀ (actions : List Input) (n : Nat) (s : State),
    Host.Core.run core n { State.reset with inputs := actions } = .next s →
    ∀ i : Fin 14, s.cfgMin.toNat ≤ s.ch[i.val].toNat ∧ s.ch[i.val].toNat ≤ s.cfgMax.toNat

/-! ### Reset -/

/-- R162: reset with a well-formed configuration loads the latches, sets every channel to CFG_DEFAULT and encodes the full
frame, whatever the state was (the encode is the spec's decision D11, log 7). A configuration that is not well formed has no reset
step. That everything outside the block stays as it was (mode, listeners, timer, host parameters, time, outputs) is the model's
reading, log 9: R161 says only that reset replaces the block's state. -/
def Obligations.ResetProcedure : Prop :=
  ∀ (s : State) (cfgMin cfgMax cfgDefault : Half) (rest : List Input),
    s.inputs = .reset cfgMin cfgMax cfgDefault :: rest →
    ((cfgMin.toNat ≤ cfgDefault.toNat ∧ cfgDefault.toNat ≤ cfgMax.toNat) → ∃ (ch : Channels) (fb : Frame),
      step s = .next { s with cfgMin := cfgMin, cfgMax := cfgMax, cfgDefault := cfgDefault, ch := ch, fb := fb, inputs := rest } ∧
      (∀ i : Fin 14, ch[i.val] = cfgDefault) ∧ fb[0] = 0x20#8 ∧ fb[1] = 0x40#8 ∧
      (∀ i : Fin 14, fb[2 + 2 * i.val] = cfgDefault.extractLsb' 0 8 ∧ fb[3 + 2 * i.val] = cfgDefault.extractLsb' 8 8) ∧
      fb[30] = (checksum 14 ch).extractLsb' 0 8 ∧ fb[31] = (checksum 14 ch).extractLsb' 8 8 ∧
      (∀ i, coherent { s with ch := ch, fb := fb } i) ∧ ckValid { s with ch := ch, fb := fb } ∧
      (cfgDefault = 1500#16 → fb = resetFrame)) ∧
    (¬ (cfgMin.toNat ≤ cfgDefault.toNat ∧ cfgDefault.toNat ≤ cfgMax.toNat) →
      step s = .refused .illFormedConfiguration)

/-- R160: from any state, a reset with the document's default configuration leaves the block as State.reset has it. That
State.reset takes the default configuration is the model's choice, log 1; the frame in it is the spec's decision D11, log 7; that
everything outside the block stays as it was is the model's reading, log 9. -/
def Obligations.ResetGivesTheResetBlock : Prop :=
  ∀ s : State, s.inputs = [.reset 1000#16 2000#16 1500#16] →
    step s = .next { s with cfgMin := State.reset.cfgMin, cfgMax := State.reset.cfgMax, cfgDefault := State.reset.cfgDefault,
                            ch := State.reset.ch, fb := State.reset.fb, inputs := [] }

/-! ### The read port -/

/-- R44 and R45: a read gives out one byte (FB[A] for A ≤ 0x1F, the little-endian bytes of CH[(A − 0x20) / 2] for A in
0x20..0x3B, 0x00 from 0x3C on), and nothing else changes. -/
def Obligations.ReadPortMap : Prop :=
  ∀ (s : State) (a : ReadAddr) (rest : List Input), s.inputs = .read a :: rest →
    ∃ b : Byte, step s = .next { s with inputs := rest, outputs := s.outputs ++ [.rdata b] } ∧
      (∀ k : Fin 32, a.toNat = k.val → b = s.fb[k.val]) ∧
      (∀ i : Fin 14, a.toNat = 0x20 + 2 * i.val → b = s.ch[i.val].extractLsb' 0 8) ∧
      (∀ i : Fin 14, a.toNat = 0x21 + 2 * i.val → b = s.ch[i.val].extractLsb' 8 8) ∧
      (0x3C ≤ a.toNat → b = 0x00#8)

/-- Reading all 32 frame addresses in offset order with no command between gives the frame, byte by byte in that order, and
`getAll` gives the 28 bytes of CH; nothing else changes (R43, R48, R73, R167). That `getAll` reads in rising order is the model's
choice, log 26. -/
def Obligations.UninterruptedReadsGiveASnapshot : Prop :=
  ∀ (s : State) (rest : List Input),
    (s.inputs = readsFrom 0x00 32 ++ rest →
      Host.Core.run core 32 s = .next { s with inputs := rest, outputs := s.outputs ++ s.fb.toList.map .rdata }) ∧
    (s.inputs = readsFrom 0x20 28 ++ rest →
      Host.Core.run core 28 s = .next { s with
        inputs := rest
        outputs := s.outputs ++ s.ch.toList.flatMap (fun v => [.rdata (v.extractLsb' 0 8), .rdata (v.extractLsb' 8 8)]) })

/-! ### The host: assembler and operand mapping -/

/-- The headers and data words of the assembly lines, the commands they decode to, and the lines an assembler refuses (R71). -/
def Obligations.AssemblyLinesGiveTheirCommands : Prop :=
  (∀ values : List Int, values.length ≤ 14 → (∀ v ∈ values, -2 ^ 31 ≤ v ∧ v ≤ 2 ^ 31 - 1) →
    ∃ data : DataWords, (∀ j : Fin 14, sext32 data[j.val] = values.getD j.val 0) ∧
      assemble (.setall values) = some [⟨BitVec.ofNat 32 (0x10000000 + values.length * 0x100), data⟩] ∧
      assemble (.update values) = some [⟨BitVec.ofNat 32 (0x40000000 + values.length * 0x100), data⟩] ∧
      decode ⟨BitVec.ofNat 32 (0x10000000 + values.length * 0x100), data⟩ = .ok (.setall (BitVec.ofNat 4 values.length) data) ∧
      decode ⟨BitVec.ofNat 32 (0x40000000 + values.length * 0x100), data⟩ = .ok (.update (BitVec.ofNat 4 values.length) data)) ∧
  (∀ idx v : Int, (0 ≤ idx ∧ idx ≤ 255) → (-2 ^ 31 ≤ v ∧ v ≤ 2 ^ 31 - 1) →
    ∃ data : DataWords, sext32 data[0] = v ∧ (∀ j : Fin 14, j.val ≠ 0 → data[j.val] = 0#32) ∧
      assemble (.setone idx v) = some [⟨BitVec.ofNat 32 (0x20000000 + idx.toNat * 0x10000), data⟩] ∧
      assemble (.updch idx v) = some [⟨BitVec.ofNat 32 (0x50000000 + idx.toNat * 0x10000), data⟩] ∧
      decode ⟨BitVec.ofNat 32 (0x20000000 + idx.toNat * 0x10000), data⟩ = .ok (.setone (BitVec.ofNat 8 idx.toNat) data) ∧
      decode ⟨BitVec.ofNat 32 (0x50000000 + idx.toNat * 0x10000), data⟩ = .ok (.updch (BitVec.ofNat 8 idx.toNat) data)) ∧
  (∀ lim : Int, (0 ≤ lim ∧ lim ≤ 14) →
    assemble (.encode lim) = some [⟨BitVec.ofNat 32 (0x30000000 + lim.toNat * 0x100), Vector.replicate 14 0#32⟩]) ∧
  (∀ values : List Int, (14 < values.length ∨ ∃ v ∈ values, ¬ (-2 ^ 31 ≤ v ∧ v ≤ 2 ^ 31 - 1)) →
    assemble (.setall values) = none ∧ assemble (.update values) = none) ∧
  (∀ idx v : Int, (¬ (0 ≤ idx ∧ idx ≤ 255) ∨ ¬ (-2 ^ 31 ≤ v ∧ v ≤ 2 ^ 31 - 1)) →
    assemble (.setone idx v) = none ∧ assemble (.updch idx v) = none) ∧
  (∀ lim : Int, ¬ (0 ≤ lim ∧ lim ≤ 14) → assemble (.encode lim) = none)

/-- R73: the pseudo-commands and the document operations are the commands and reads the rule lists: REFRESH and a default
encode are ENCODE 14, FULLUPDATE is SETALL then ENCODE 14, and `getAll` is the reads of 0x20..0x3B (in rising order by the
model's choice, log 26). -/
def Obligations.DocumentOperationsExpandToCommands : Prop :=
  assemble .refresh = some [encode (.encode 14#4)] ∧
  (∀ values t, assemble (.setall values) = some [t] ↔ assemble (.fullupdate values) = some [t, encode (.encode 14#4)]) ∧
  (∀ values t, assemble (.update (values.map hostValue)) = some [t] → hostActions (.update values) = .ok [.command t]) ∧
  (∀ values t, assemble (.setall (values.map hostValue)) = some [t] → hostActions (.setAll values) = .ok [.command t]) ∧
  (∀ index value t, assemble (.updch (hostIndex index) (hostValue value)) = some [t] →
    hostActions (.updateChannel index value) = .ok [.command t]) ∧
  (∀ index value t, assemble (.setone (hostIndex index) (hostValue value)) = some [t] →
    hostActions (.setOne index value) = .ok [.command t]) ∧
  (∀ lim t, assemble (.encode lim) = some [t] → hostActions (.encode (some lim)) = .ok [.command t]) ∧
  hostActions (.encode none) = .ok [.command (encode (.encode 14#4))] ∧
  hostActions .getAll = .ok ((List.range 28).map (fun k => .read (BitVec.ofNat 6 (0x20 + k))))

/-- R74: (a) every document index has an IDX, which names a channel exactly when the index is that channel's, so no index
aliases another; (b) every document value has a data word, and saturating it does not change what the clamp unit returns;
(d) more than 14 values are refused. -/
def Obligations.HostOperandMapping : Prop :=
  (∀ index : Int, ∃ idx : BitVec 8, indexOperand (hostIndex index) = some idx ∧
    (¬ (0 ≤ index ∧ index ≤ 255) → idx = 0xFF#8) ∧
    ∀ k : Fin 14, channelIndex idx = some k ↔ index = (k.val : Int)) ∧
  (∀ (value : Int) (cfgMin cfgMax : Half), ∃ w : Word, valueWord (hostValue value) = some w ∧
    (value < -2 ^ 31 → sext32 w = -2 ^ 31) ∧ (2 ^ 31 - 1 < value → sext32 w = 2 ^ 31 - 1) ∧
    clamp cfgMin cfgMax (sext32 w) = clamp cfgMin cfgMax value) ∧
  (∀ values : List Int, 14 < values.length →
    hostActions (.setAll values) = .error .tooManyValues ∧ hostActions (.update values) = .error .tooManyValues)

/-! ### The host: Broadcaster -/

/-- R143 and R149: `listen` appends the callback to L, or, when |L| = MAX_LISTENERS, gives out MaxListenersExceeded and
changes neither L nor the mode; nothing else changes. -/
def Obligations.ListenAppendsOrFails : Prop :=
  ∀ (s : State) (l : Listener) (rest : List Input), s.inputs = .listen l :: rest →
    (s.listeners.length ≠ s.maxListeners → step s = .next { s with inputs := rest, listeners := s.listeners ++ [l] }) ∧
    (s.listeners.length = s.maxListeners →
      step s = .next { s with inputs := rest, outputs := s.outputs ++ [.maxListenersExceeded] })

/-- R145: `stop` cancels the timer, empties L and enters Idle; in Idle it is a no-op; the block is untouched. No tick fires
after it: in Idle no step hands a frame to a listener, and no step but step 4 of a `start` leaves Idle. -/
def Obligations.StopCancelsEverything : Prop :=
  (∀ (s : State) (rest : List Input), s.inputs = .stop :: rest →
    (s.mode = .running → step s = .next { s with inputs := rest, mode := .idle, listeners := [], timer := none }) ∧
    (s.mode = .idle → step s = .next { s with inputs := rest })) ∧
  (∀ (s t : State) (input : Input) (rest : List Input), s.mode = .idle → s.inputs = input :: rest →
    input ≠ .enterRunning → step s = .next t →
    t.mode = .idle ∧ ∃ new : List Output, t.outputs = s.outputs ++ new ∧ ∀ l frame, Output.delivered l frame ∉ new)

/-- R144: with a callback that L has room for, or none, `start` stops a running broadcast, registers the callback, stores and
fully encodes the values (two commands, with their two responses), and enters Running with a timer of the host's period; without
values the block is untouched. With more than 14 values it is refused. That these are exactly four (two) steps with nothing between
them is the model's choice, log 10 (R73 allows reads between the two commands), and that the new timer counts no earlier tick is
log 13. -/
def Obligations.StartRunsItsFourSteps : Prop :=
  ∀ (s : State) (callback : Option Listener) (rest : List Input),
    (∀ l, callback = some l → (if s.mode = .running then 0 else s.listeners.length) ≠ s.maxListeners) →
    (∀ values : List Int, s.inputs = .start (some values) callback :: rest → values.length ≤ 14 →
      ∃ t, Host.Core.run core 4 s = .next t ∧ t.mode = .running ∧ t.timer = some ⟨s.intervalMs, none⟩ ∧
        t.listeners = (if s.mode = .running then [] else s.listeners) ++ callback.toList ∧ t.inputs = rest ∧
        (∀ i : Fin 14, t.ch[i.val] =
          if h : i.val < values.length then clamp s.cfgMin s.cfgMax values[i.val] else s.ch[i.val]) ∧
        (∀ i, coherent t i) ∧ ckValid t ∧
        t.outputs = s.outputs ++ [.response (BitVec.ofNat 32 (values.length * 0x100)), .response 0#32]) ∧
    (s.inputs = .start none callback :: rest →
      Host.Core.run core 2 s = .next { s with
        inputs := rest, mode := .running, timer := some ⟨s.intervalMs, none⟩
        listeners := (if s.mode = .running then [] else s.listeners) ++ callback.toList }) ∧
    (∀ values : List Int, s.inputs = .start (some values) callback :: rest → 14 < values.length →
      step s = .refused .tooManyValues)

/-- What `start` does when its `listen` fails, for each value of the open parameter HOST_START_ON_LISTEN_FAIL (R144, D23,
log 11): it stops a running broadcast and reports MaxListenersExceeded; then it ends before step 3, in Idle if it was Running,
or it goes on exactly as `start` without a callback. -/
def Obligations.StartWhenListenFails : Prop :=
  ∀ (s : State) (values : Option (List Int)) (l : Listener) (rest : List Input),
    s.inputs = .start values (some l) :: rest →
    (if s.mode = .running then 0 else s.listeners.length) = s.maxListeners →
    (Config.startOnListenFail = .abortBeforeRunning →
      step s = .next { s with
        inputs := rest, mode := .idle, timer := (if s.mode = .running then none else s.timer)
        listeners := (if s.mode = .running then [] else s.listeners), outputs := s.outputs ++ [.maxListenersExceeded] }) ∧
    (Config.startOnListenFail = .continueToRunning →
      step s = step { s with
        inputs := .start values none :: rest, outputs := s.outputs ++ [.maxListenersExceeded] })

/-- R146: in Running with a due timer, a tick calls every listener of L in registration order, each with the same 32 bytes
FB[0..31], and changes no block state; in Idle it does nothing. That an offered tick that is due fires and records the host's time
in the timer is the model's choice, log 13, and so is that a listener that returns changes no state of the host, log 15. -/
def Obligations.TickHandsTheFrameToEveryListener : Prop :=
  ∀ (s : State) (rest : List Input), s.inputs = .tick :: rest →
    (∀ tm, s.mode = .running → s.timer = some tm →
      (∀ last, tm.lastTickMs = some last → last + tm.periodMs ≤ s.clockMs) →
      (∀ l ∈ s.listeners, l.behaviour = .returns) →
      step s = .next { s with
        inputs := rest, timer := some ⟨tm.periodMs, some s.clockMs⟩
        outputs := s.outputs ++ s.listeners.map (fun l => .delivered l.id s.fb) }) ∧
    (s.mode = .idle → step s = .next { s with inputs := rest })

/-- Two consecutive ticks are at least BROADCAST_INTERVAL_MS apart: a tick offered earlier than that after the last one fires
nothing (R148). A due tick stops at the first listener that never returns (stuck) or throws (refused), the two cases the spec
gives no other meaning (93_implementation_defined.md). How ticks are offered is the model's choice, log 13, and what a listener that
stops the tick leaves is its reading, log 14. -/
def Obligations.TickSpacingAndStops : Prop :=
  (∀ (s : State) (tm : Timer) (last : Nat) (rest : List Input), Inv s → s.inputs = .tick :: rest →
    s.timer = some tm → tm.lastTickMs = some last → s.clockMs < last + s.intervalMs →
    step s = .next { s with inputs := rest }) ∧
  (∀ (s : State) (tm : Timer) (before after : List Listener) (l : Listener) (rest : List Input),
    s.inputs = .tick :: rest → s.mode = .running → s.timer = some tm →
    (∀ last, tm.lastTickMs = some last → last + tm.periodMs ≤ s.clockMs) →
    s.listeners = before ++ l :: after → (∀ b ∈ before, b.behaviour = .returns) →
    (l.behaviour = .neverReturns → step s = .fault .listenerNeverReturns) ∧
    (l.behaviour = .throws → step s = .refused .listenerThrows))

/-- R141: the host parameters are fixed by `construct` (an interval below 7 raised to 7; defaults 7 and 10), and no other
input changes them. That State.reset stands for a host constructed with the defaults is the model's choice, log 1. -/
def Obligations.HostParametersAreFixedAtConstruction : Prop :=
  (State.reset.intervalMs = 7 ∧ State.reset.maxListeners = 10) ∧
  (∀ (s : State) (c : HostConfig) (rest : List Input), s.inputs = .construct c :: rest →
    (0 ≤ c.minValue ∧ c.minValue ≤ c.defaultValue ∧ c.defaultValue ≤ c.maxValue ∧ c.maxValue ≤ 0xFFFF) →
    ∃ t, step s = .next t ∧ (t.intervalMs : Int) = max c.broadcastIntervalMs 7 ∧ t.maxListeners = c.maxListeners) ∧
  (∀ (s t : State) (input : Input) (rest : List Input), s.inputs = input :: rest →
    (∀ c, input ≠ .construct c) → step s = .next t →
    t.intervalMs = s.intervalMs ∧ t.maxListeners = s.maxListeners)

/-- `construct` with a well-formed configuration leaves a host in Idle with no listeners and a freshly reset block with that
configuration, after the reset it issues (R7, R142, R161, R163; that it replaces the host's own state is the model's reading,
log 16). With any other configuration it is refused. -/
def Obligations.ConstructResetsTheBlock : Prop :=
  ∀ (s : State) (c : HostConfig) (rest : List Input), s.inputs = .construct c :: rest →
    ((0 ≤ c.minValue ∧ c.minValue ≤ c.defaultValue ∧ c.defaultValue ≤ c.maxValue ∧ c.maxValue ≤ 0xFFFF) →
      ∃ t, Host.Core.run core 2 s = .next t ∧ t.mode = .idle ∧ t.listeners = [] ∧ t.timer = none ∧ t.inputs = rest ∧
        (t.cfgMin.toNat : Int) = c.minValue ∧ (t.cfgMax.toNat : Int) = c.maxValue ∧
        (t.cfgDefault.toNat : Int) = c.defaultValue ∧ (∀ i : Fin 14, t.ch[i.val] = t.cfgDefault) ∧
        (∀ i, coherent t i) ∧ ckValid t) ∧
    (¬ (0 ≤ c.minValue ∧ c.minValue ≤ c.defaultValue ∧ c.defaultValue ≤ c.maxValue ∧ c.maxValue ≤ 0xFFFF) →
      step s = .refused .illFormedConfiguration)

/-- Within one session ticks are spaced (R148). Once the timer has ticked, a step that takes no `start`, `stop` or `construct` keeps
the host in Running, never turns the time back, and either leaves the timer with its last tick and hands no frame to a listener,
or is a tick at least BROADCAST_INTERVAL_MS after the last one, which becomes the last one. How time passes and ticks are offered
is the model's choice, log 13. -/
def Obligations.TicksOfOneSessionAreSpaced : Prop :=
  ∀ (s t : State) (tm : Timer) (last : Nat) (input : Input) (rest : List Input), Inv s → s.timer = some tm →
    tm.lastTickMs = some last → s.inputs = input :: rest → (∀ values callback, input ≠ .start values callback) →
    input ≠ .stop → (∀ c, input ≠ .construct c) → step s = .next t →
    t.mode = .running ∧ s.clockMs ≤ t.clockMs ∧
    ((t.timer = s.timer ∧ ∃ new : List Output, t.outputs = s.outputs ++ new ∧ ∀ l frame, Output.delivered l frame ∉ new) ∨
      (input = .tick ∧ last + s.intervalMs ≤ s.clockMs ∧ t.timer = some ⟨s.intervalMs, some s.clockMs⟩))

/-- Step 4 of `start` given by itself (R144): in Running it changes nothing, so the timer keeps its last tick (R148), and in Idle it
is `start` without values and callback. That it can be given by itself is the model's choice, log 10. -/
def Obligations.EnteringRunningStartsATimerOnlyFromIdle : Prop :=
  ∀ (s : State) (rest : List Input), s.inputs = .enterRunning :: rest →
    (s.mode = .running → step s = .next { s with inputs := rest }) ∧
    (s.mode = .idle →
      step s = .next { s with inputs := rest, mode := .running, timer := some ⟨s.intervalMs, none⟩ } ∧
      step s = Host.Core.run core 2 { s with inputs := .start none none :: rest })
end

