-- ==== Sys2Proof/Laws/Decode.lean ====
section
/-! SUPPORT. Spec lemmas of the header fields, the encoder and the decoder. -/

namespace Sys2Proof

/-! ### The fields of an encoded header (R61) -/

theorem headerWord_toNat (op : BitVec 4) (idx : BitVec 8) (n : BitVec 4) :
    (headerWord op idx n).toNat = op.toNat * 2 ^ 28 + idx.toNat * 2 ^ 16 + n.toNat * 2 ^ 8 := by
  have h1 := op.isLt
  have h2 := idx.isLt
  have h3 := n.isLt
  unfold headerWord
  simp only [BitVec.toNat_append, BitVec.toNat_ofNat, Nat.zero_mod, Nat.or_zero, Nat.shiftLeft_eq]
  rw [← Nat.shiftLeft_eq (op.toNat * 2 ^ 4), ← Nat.shiftLeft_add_eq_or_of_lt h2, Nat.shiftLeft_eq,
    ← Nat.shiftLeft_eq ((op.toNat * 2 ^ 4 * 2 ^ 8 + idx.toNat) * 2 ^ 4), ← Nat.shiftLeft_add_eq_or_of_lt h3,
    Nat.shiftLeft_eq]
  omega

@[simp] theorem opField_headerWord (op : BitVec 4) (idx : BitVec 8) (n : BitVec 4) :
    opField (headerWord op idx n) = op := by
  have h1 := op.isLt
  have h2 := idx.isLt
  have h3 := n.isLt
  apply BitVec.eq_of_toNat_eq
  rw [opField, BitVec.extractLsb'_toNat, headerWord_toNat, Nat.shiftRight_eq_div_pow]
  omega

@[simp] theorem rsvAField_headerWord (op : BitVec 4) (idx : BitVec 8) (n : BitVec 4) :
    rsvAField (headerWord op idx n) = 0#4 := by
  have h1 := op.isLt
  have h2 := idx.isLt
  have h3 := n.isLt
  apply BitVec.eq_of_toNat_eq
  rw [rsvAField, BitVec.extractLsb'_toNat, headerWord_toNat, Nat.shiftRight_eq_div_pow]
  simp; omega

@[simp] theorem idxField_headerWord (op : BitVec 4) (idx : BitVec 8) (n : BitVec 4) :
    idxField (headerWord op idx n) = idx := by
  have h1 := op.isLt
  have h2 := idx.isLt
  have h3 := n.isLt
  apply BitVec.eq_of_toNat_eq
  rw [idxField, BitVec.extractLsb'_toNat, headerWord_toNat, Nat.shiftRight_eq_div_pow]
  omega

@[simp] theorem rsvBField_headerWord (op : BitVec 4) (idx : BitVec 8) (n : BitVec 4) :
    rsvBField (headerWord op idx n) = 0#4 := by
  have h1 := op.isLt
  have h2 := idx.isLt
  have h3 := n.isLt
  apply BitVec.eq_of_toNat_eq
  rw [rsvBField, BitVec.extractLsb'_toNat, headerWord_toNat, Nat.shiftRight_eq_div_pow]
  simp; omega

@[simp] theorem nField_headerWord (op : BitVec 4) (idx : BitVec 8) (n : BitVec 4) :
    nField (headerWord op idx n) = n := by
  have h1 := op.isLt
  have h2 := idx.isLt
  have h3 := n.isLt
  apply BitVec.eq_of_toNat_eq
  rw [nField, BitVec.extractLsb'_toNat, headerWord_toNat, Nat.shiftRight_eq_div_pow]
  omega

@[simp] theorem rsvCField_headerWord (op : BitVec 4) (idx : BitVec 8) (n : BitVec 4) :
    rsvCField (headerWord op idx n) = 0#8 := by
  have h1 := op.isLt
  have h2 := idx.isLt
  have h3 := n.isLt
  apply BitVec.eq_of_toNat_eq
  rw [rsvCField, BitVec.extractLsb'_toNat, headerWord_toNat, Nat.shiftRight_eq_div_pow]
  simp; omega

/-- A header is the concatenation of its six fields (R61). -/
theorem header_toNat (h : Word) :
    h.toNat = (opField h).toNat * 2 ^ 28 + (rsvAField h).toNat * 2 ^ 24 + (idxField h).toNat * 2 ^ 16
      + (rsvBField h).toNat * 2 ^ 12 + (nField h).toNat * 2 ^ 8 + (rsvCField h).toNat := by
  have := h.isLt
  simp only [opField, rsvAField, idxField, rsvBField, nField, rsvCField, BitVec.extractLsb'_toNat,
    Nat.shiftRight_eq_div_pow]
  omega

/-- A header whose reserved fields are zero is made of its other three fields. -/
theorem header_eq_headerWord (h : Word) (ha : rsvAField h = 0#4) (hb : rsvBField h = 0#4) (hc : rsvCField h = 0#8) :
    h = headerWord (opField h) (idxField h) (nField h) := by
  apply BitVec.eq_of_toNat_eq
  rw [headerWord_toNat, header_toNat h, ha, hb, hc]
  simp

/-- Two headers with equal fields are equal. -/
theorem header_ext {h k : Word} (h1 : opField h = opField k) (h2 : rsvAField h = rsvAField k)
    (h3 : idxField h = idxField k) (h4 : rsvBField h = rsvBField k) (h5 : nField h = nField k)
    (h6 : rsvCField h = rsvCField k) : h = k := by
  apply BitVec.eq_of_toNat_eq
  rw [header_toNat h, header_toNat k, h1, h2, h3, h4, h5, h6]

theorem extractLsb'_mask {w : Nat} (a b : BitVec w) (i n : Nat) :
    (a &&& b).extractLsb' i n = a.extractLsb' i n &&& b.extractLsb' i n := by
  ext j; simp

/-- The fields a header has under the mask of SETALL, ENCODE and UPDATE (R67): N is masked out. -/
theorem fields_counted_mask (h : Word) :
    opField (h &&& 0xFFFFF0FF#32) = opField h ∧ rsvAField (h &&& 0xFFFFF0FF#32) = rsvAField h ∧
      idxField (h &&& 0xFFFFF0FF#32) = idxField h ∧ rsvBField (h &&& 0xFFFFF0FF#32) = rsvBField h ∧
      nField (h &&& 0xFFFFF0FF#32) = 0#4 ∧ rsvCField (h &&& 0xFFFFF0FF#32) = rsvCField h := by
  refine ⟨?_, ?_, ?_, ?_, ?_, ?_⟩
  · exact (extractLsb'_mask ..).trans (BitVec.and_allOnes)
  · exact (extractLsb'_mask ..).trans (BitVec.and_allOnes)
  · exact (extractLsb'_mask ..).trans (BitVec.and_allOnes)
  · exact (extractLsb'_mask ..).trans (BitVec.and_allOnes)
  · exact (extractLsb'_mask ..).trans (BitVec.and_zero)
  · exact (extractLsb'_mask ..).trans (BitVec.and_allOnes)

/-- The fields a header has under the mask of SETONE and UPDCH (R67): IDX is masked out. -/
theorem fields_indexed_mask (h : Word) :
    opField (h &&& 0xFF00FFFF#32) = opField h ∧ rsvAField (h &&& 0xFF00FFFF#32) = rsvAField h ∧
      idxField (h &&& 0xFF00FFFF#32) = 0#8 ∧ rsvBField (h &&& 0xFF00FFFF#32) = rsvBField h ∧
      nField (h &&& 0xFF00FFFF#32) = nField h ∧ rsvCField (h &&& 0xFF00FFFF#32) = rsvCField h := by
  refine ⟨?_, ?_, ?_, ?_, ?_, ?_⟩
  · exact (extractLsb'_mask ..).trans (BitVec.and_allOnes)
  · exact (extractLsb'_mask ..).trans (BitVec.and_allOnes)
  · exact (extractLsb'_mask ..).trans (BitVec.and_zero)
  · exact (extractLsb'_mask ..).trans (BitVec.and_allOnes)
  · exact (extractLsb'_mask ..).trans (BitVec.and_allOnes)
  · exact (extractLsb'_mask ..).trans (BitVec.and_allOnes)

/-! ### What the decoder accepts -/

theorem decodeCounted_ok {h : Word} {i j : Instr} (hd : decodeCounted h i = .ok j) :
    idxField h = 0#8 ∧ countLegal (nField h) = true ∧ j = i := by
  unfold decodeCounted at hd
  split at hd
  · cases hd
  · split at hd
    · cases hd; simp_all
    · cases hd

theorem decodeIndexed_ok {h : Word} {i j : Instr} (hd : decodeIndexed h i = .ok j) : nField h = 0#4 ∧ j = i := by
  unfold decodeIndexed at hd
  split at hd
  · cases hd
  · cases hd; simp_all

theorem opField_eq {h : Word} {k : Nat} (hk : k < 16) (e : (opField h).toNat = k) : opField h = BitVec.ofNat 4 k := by
  apply BitVec.eq_of_toNat_eq
  rw [e, BitVec.toNat_ofNat, Nat.mod_eq_of_lt (by omega)]

/-- Everything a successful decoding says of the header (R66, R67, R68): the reserved fields are zero, and the command is read
from the fields its OP names, the field it does not use being zero. -/
theorem decode_ok_cases {t : Transaction} {i : Instr} (h : decode t = .ok i) :
    rsvAField t.header = 0#4 ∧ rsvBField t.header = 0#4 ∧ rsvCField t.header = 0#8 ∧
      ((opField t.header = 0x1#4 ∧ idxField t.header = 0#8 ∧ countLegal (nField t.header) = true ∧
          i = .setall (nField t.header) t.data) ∨
       (opField t.header = 0x2#4 ∧ nField t.header = 0#4 ∧ i = .setone (idxField t.header) t.data) ∨
       (opField t.header = 0x3#4 ∧ idxField t.header = 0#8 ∧ countLegal (nField t.header) = true ∧
          i = .encode (nField t.header)) ∨
       (opField t.header = 0x4#4 ∧ idxField t.header = 0#8 ∧ countLegal (nField t.header) = true ∧
          i = .update (nField t.header) t.data) ∨
       (opField t.header = 0x5#4 ∧ nField t.header = 0#4 ∧ i = .updch (idxField t.header) t.data)) := by
  unfold decode at h
  split at h
  · cases h
  · rename_i hr
    simp only [not_or, ne_eq, not_not] at hr
    refine ⟨hr.1, hr.2.1, hr.2.2, ?_⟩
    split at h
    · rename_i hop
      obtain ⟨h1, h2, rfl⟩ := decodeCounted_ok h
      exact .inl ⟨opField_eq (k := 1) (by omega) hop, h1, h2, rfl⟩
    · rename_i hop
      obtain ⟨h1, rfl⟩ := decodeIndexed_ok h
      exact .inr (.inl ⟨opField_eq (k := 2) (by omega) hop, h1, rfl⟩)
    · rename_i hop
      obtain ⟨h1, h2, rfl⟩ := decodeCounted_ok h
      exact .inr (.inr (.inl ⟨opField_eq (k := 3) (by omega) hop, h1, h2, rfl⟩))
    · rename_i hop
      obtain ⟨h1, h2, rfl⟩ := decodeCounted_ok h
      exact .inr (.inr (.inr (.inl ⟨opField_eq (k := 4) (by omega) hop, h1, h2, rfl⟩)))
    · rename_i hop
      obtain ⟨h1, rfl⟩ := decodeIndexed_ok h
      exact .inr (.inr (.inr (.inr ⟨opField_eq (k := 5) (by omega) hop, h1, rfl⟩)))
    · cases h

/-- A decoded command is well formed. -/
theorem decode_wf {t : Transaction} {i : Instr} (h : decode t = .ok i) : i.wf = true := by
  obtain ⟨-, -, -, h | h | h | h | h⟩ := decode_ok_cases h <;> simp_all [Instr.wf]

end Sys2Proof
end

