-- ==== Sys2Proof/Laws/State.lean ====
section
/-! SUPPORT. One lemma per field per state update, true by definition: what each shared operation writes and what it leaves. -/

namespace Sys2Proof.Machine

/-! ### emit -/

@[simp] theorem emit_cfgMin (o : Output) (s : State) : (emit o s).cfgMin = s.cfgMin := rfl
@[simp] theorem emit_cfgMax (o : Output) (s : State) : (emit o s).cfgMax = s.cfgMax := rfl
@[simp] theorem emit_cfgDefault (o : Output) (s : State) : (emit o s).cfgDefault = s.cfgDefault := rfl
@[simp] theorem emit_ch (o : Output) (s : State) : (emit o s).ch = s.ch := rfl
@[simp] theorem emit_fb (o : Output) (s : State) : (emit o s).fb = s.fb := rfl
@[simp] theorem emit_mode (o : Output) (s : State) : (emit o s).mode = s.mode := rfl
@[simp] theorem emit_listeners (o : Output) (s : State) : (emit o s).listeners = s.listeners := rfl
@[simp] theorem emit_timer (o : Output) (s : State) : (emit o s).timer = s.timer := rfl
@[simp] theorem emit_intervalMs (o : Output) (s : State) : (emit o s).intervalMs = s.intervalMs := rfl
@[simp] theorem emit_maxListeners (o : Output) (s : State) : (emit o s).maxListeners = s.maxListeners := rfl
@[simp] theorem emit_clockMs (o : Output) (s : State) : (emit o s).clockMs = s.clockMs := rfl
@[simp] theorem emit_inputs (o : Output) (s : State) : (emit o s).inputs = s.inputs := rfl
@[simp] theorem emit_outputs (o : Output) (s : State) : (emit o s).outputs = s.outputs ++ [o] := rfl

/-! ### respond -/

@[simp] theorem respond_cfgMin (st : Status) (c : BitVec 4) (s : State) : (respond st c s).cfgMin = s.cfgMin := rfl
@[simp] theorem respond_cfgMax (st : Status) (c : BitVec 4) (s : State) : (respond st c s).cfgMax = s.cfgMax := rfl
@[simp] theorem respond_cfgDefault (st : Status) (c : BitVec 4) (s : State) : (respond st c s).cfgDefault = s.cfgDefault := rfl
@[simp] theorem respond_ch (st : Status) (c : BitVec 4) (s : State) : (respond st c s).ch = s.ch := rfl
@[simp] theorem respond_fb (st : Status) (c : BitVec 4) (s : State) : (respond st c s).fb = s.fb := rfl
@[simp] theorem respond_mode (st : Status) (c : BitVec 4) (s : State) : (respond st c s).mode = s.mode := rfl
@[simp] theorem respond_listeners (st : Status) (c : BitVec 4) (s : State) : (respond st c s).listeners = s.listeners := rfl
@[simp] theorem respond_timer (st : Status) (c : BitVec 4) (s : State) : (respond st c s).timer = s.timer := rfl
@[simp] theorem respond_intervalMs (st : Status) (c : BitVec 4) (s : State) : (respond st c s).intervalMs = s.intervalMs := rfl
@[simp] theorem respond_maxListeners (st : Status) (c : BitVec 4) (s : State) : (respond st c s).maxListeners = s.maxListeners := rfl
@[simp] theorem respond_clockMs (st : Status) (c : BitVec 4) (s : State) : (respond st c s).clockMs = s.clockMs := rfl
@[simp] theorem respond_inputs (st : Status) (c : BitVec 4) (s : State) : (respond st c s).inputs = s.inputs := rfl
@[simp] theorem respond_outputs (st : Status) (c : BitVec 4) (s : State) : (respond st c s).outputs = s.outputs ++ [.response (responseWord st c)] := rfl

/-! ### storeChannel -/

@[simp] theorem storeChannel_cfgMin (i : Fin 14) (raw : Int) (s : State) : (storeChannel i raw s).cfgMin = s.cfgMin := rfl
@[simp] theorem storeChannel_cfgMax (i : Fin 14) (raw : Int) (s : State) : (storeChannel i raw s).cfgMax = s.cfgMax := rfl
@[simp] theorem storeChannel_cfgDefault (i : Fin 14) (raw : Int) (s : State) : (storeChannel i raw s).cfgDefault = s.cfgDefault := rfl
@[simp] theorem storeChannel_ch (i : Fin 14) (raw : Int) (s : State) : (storeChannel i raw s).ch = s.ch.set i.val (clamp s.cfgMin s.cfgMax raw) := rfl
@[simp] theorem storeChannel_fb (i : Fin 14) (raw : Int) (s : State) : (storeChannel i raw s).fb = s.fb := rfl
@[simp] theorem storeChannel_mode (i : Fin 14) (raw : Int) (s : State) : (storeChannel i raw s).mode = s.mode := rfl
@[simp] theorem storeChannel_listeners (i : Fin 14) (raw : Int) (s : State) : (storeChannel i raw s).listeners = s.listeners := rfl
@[simp] theorem storeChannel_timer (i : Fin 14) (raw : Int) (s : State) : (storeChannel i raw s).timer = s.timer := rfl
@[simp] theorem storeChannel_intervalMs (i : Fin 14) (raw : Int) (s : State) : (storeChannel i raw s).intervalMs = s.intervalMs := rfl
@[simp] theorem storeChannel_maxListeners (i : Fin 14) (raw : Int) (s : State) : (storeChannel i raw s).maxListeners = s.maxListeners := rfl
@[simp] theorem storeChannel_clockMs (i : Fin 14) (raw : Int) (s : State) : (storeChannel i raw s).clockMs = s.clockMs := rfl
@[simp] theorem storeChannel_inputs (i : Fin 14) (raw : Int) (s : State) : (storeChannel i raw s).inputs = s.inputs := rfl
@[simp] theorem storeChannel_outputs (i : Fin 14) (raw : Int) (s : State) : (storeChannel i raw s).outputs = s.outputs := rfl

/-! ### storeChannels -/

@[simp] theorem storeChannels_cfgMin (n : Nat) (data : DataWords) (s : State) : (storeChannels n data s).cfgMin = s.cfgMin := rfl
@[simp] theorem storeChannels_cfgMax (n : Nat) (data : DataWords) (s : State) : (storeChannels n data s).cfgMax = s.cfgMax := rfl
@[simp] theorem storeChannels_cfgDefault (n : Nat) (data : DataWords) (s : State) : (storeChannels n data s).cfgDefault = s.cfgDefault := rfl
@[simp] theorem storeChannels_ch (n : Nat) (data : DataWords) (s : State) : (storeChannels n data s).ch = storeAll s.cfgMin s.cfgMax n data s.ch := rfl
@[simp] theorem storeChannels_fb (n : Nat) (data : DataWords) (s : State) : (storeChannels n data s).fb = s.fb := rfl
@[simp] theorem storeChannels_mode (n : Nat) (data : DataWords) (s : State) : (storeChannels n data s).mode = s.mode := rfl
@[simp] theorem storeChannels_listeners (n : Nat) (data : DataWords) (s : State) : (storeChannels n data s).listeners = s.listeners := rfl
@[simp] theorem storeChannels_timer (n : Nat) (data : DataWords) (s : State) : (storeChannels n data s).timer = s.timer := rfl
@[simp] theorem storeChannels_intervalMs (n : Nat) (data : DataWords) (s : State) : (storeChannels n data s).intervalMs = s.intervalMs := rfl
@[simp] theorem storeChannels_maxListeners (n : Nat) (data : DataWords) (s : State) : (storeChannels n data s).maxListeners = s.maxListeners := rfl
@[simp] theorem storeChannels_clockMs (n : Nat) (data : DataWords) (s : State) : (storeChannels n data s).clockMs = s.clockMs := rfl
@[simp] theorem storeChannels_inputs (n : Nat) (data : DataWords) (s : State) : (storeChannels n data s).inputs = s.inputs := rfl
@[simp] theorem storeChannels_outputs (n : Nat) (data : DataWords) (s : State) : (storeChannels n data s).outputs = s.outputs := rfl

/-! ### encodeFrame -/

@[simp] theorem encodeFrame_cfgMin (limit : Nat) (s : State) : (encodeFrame limit s).cfgMin = s.cfgMin := rfl
@[simp] theorem encodeFrame_cfgMax (limit : Nat) (s : State) : (encodeFrame limit s).cfgMax = s.cfgMax := rfl
@[simp] theorem encodeFrame_cfgDefault (limit : Nat) (s : State) : (encodeFrame limit s).cfgDefault = s.cfgDefault := rfl
@[simp] theorem encodeFrame_ch (limit : Nat) (s : State) : (encodeFrame limit s).ch = s.ch := rfl
@[simp] theorem encodeFrame_fb (limit : Nat) (s : State) : (encodeFrame limit s).fb = writeChecksum (checksum limit s.ch) (writeFields limit s.ch (writeHeader s.fb)) := rfl
@[simp] theorem encodeFrame_mode (limit : Nat) (s : State) : (encodeFrame limit s).mode = s.mode := rfl
@[simp] theorem encodeFrame_listeners (limit : Nat) (s : State) : (encodeFrame limit s).listeners = s.listeners := rfl
@[simp] theorem encodeFrame_timer (limit : Nat) (s : State) : (encodeFrame limit s).timer = s.timer := rfl
@[simp] theorem encodeFrame_intervalMs (limit : Nat) (s : State) : (encodeFrame limit s).intervalMs = s.intervalMs := rfl
@[simp] theorem encodeFrame_maxListeners (limit : Nat) (s : State) : (encodeFrame limit s).maxListeners = s.maxListeners := rfl
@[simp] theorem encodeFrame_clockMs (limit : Nat) (s : State) : (encodeFrame limit s).clockMs = s.clockMs := rfl
@[simp] theorem encodeFrame_inputs (limit : Nat) (s : State) : (encodeFrame limit s).inputs = s.inputs := rfl
@[simp] theorem encodeFrame_outputs (limit : Nat) (s : State) : (encodeFrame limit s).outputs = s.outputs := rfl

/-! ### resetBlock -/

@[simp] theorem resetBlock_cfgMin (lo hi dflt : Half) (s : State) : (resetBlock lo hi dflt s).cfgMin = lo := rfl
@[simp] theorem resetBlock_cfgMax (lo hi dflt : Half) (s : State) : (resetBlock lo hi dflt s).cfgMax = hi := rfl
@[simp] theorem resetBlock_cfgDefault (lo hi dflt : Half) (s : State) : (resetBlock lo hi dflt s).cfgDefault = dflt := rfl
@[simp] theorem resetBlock_ch (lo hi dflt : Half) (s : State) : (resetBlock lo hi dflt s).ch = Vector.replicate 14 dflt := rfl
@[simp] theorem resetBlock_fb (lo hi dflt : Half) (s : State) : (resetBlock lo hi dflt s).fb = writeChecksum (checksum 14 (Vector.replicate 14 dflt)) (writeFields 14 (Vector.replicate 14 dflt) (writeHeader s.fb)) := rfl
@[simp] theorem resetBlock_mode (lo hi dflt : Half) (s : State) : (resetBlock lo hi dflt s).mode = s.mode := rfl
@[simp] theorem resetBlock_listeners (lo hi dflt : Half) (s : State) : (resetBlock lo hi dflt s).listeners = s.listeners := rfl
@[simp] theorem resetBlock_timer (lo hi dflt : Half) (s : State) : (resetBlock lo hi dflt s).timer = s.timer := rfl
@[simp] theorem resetBlock_intervalMs (lo hi dflt : Half) (s : State) : (resetBlock lo hi dflt s).intervalMs = s.intervalMs := rfl
@[simp] theorem resetBlock_maxListeners (lo hi dflt : Half) (s : State) : (resetBlock lo hi dflt s).maxListeners = s.maxListeners := rfl
@[simp] theorem resetBlock_clockMs (lo hi dflt : Half) (s : State) : (resetBlock lo hi dflt s).clockMs = s.clockMs := rfl
@[simp] theorem resetBlock_inputs (lo hi dflt : Half) (s : State) : (resetBlock lo hi dflt s).inputs = s.inputs := rfl
@[simp] theorem resetBlock_outputs (lo hi dflt : Half) (s : State) : (resetBlock lo hi dflt s).outputs = s.outputs := rfl

/-! ### enterRunning, which branches on the mode -/

theorem enterRunning_of_idle {s : State} (h : s.mode = .idle) :
    enterRunning s = { s with mode := .running, timer := some ⟨s.intervalMs, none⟩ } := by simp [enterRunning, h]
theorem enterRunning_of_running {s : State} (h : s.mode = .running) : enterRunning s = s := by simp [enterRunning, h]
@[simp] theorem enterRunning_mode (s : State) : (enterRunning s).mode = .running := by
  unfold enterRunning; split <;> simp_all
@[simp] theorem enterRunning_timer (s : State) :
    (enterRunning s).timer = if s.mode = .idle then some ⟨s.intervalMs, none⟩ else s.timer := by
  cases h : s.mode <;> simp [enterRunning, h]
@[simp] theorem enterRunning_cfgMin (s : State) : (enterRunning s).cfgMin = s.cfgMin := by
  unfold enterRunning; split <;> rfl
@[simp] theorem enterRunning_cfgMax (s : State) : (enterRunning s).cfgMax = s.cfgMax := by
  unfold enterRunning; split <;> rfl
@[simp] theorem enterRunning_cfgDefault (s : State) : (enterRunning s).cfgDefault = s.cfgDefault := by
  unfold enterRunning; split <;> rfl
@[simp] theorem enterRunning_ch (s : State) : (enterRunning s).ch = s.ch := by
  unfold enterRunning; split <;> rfl
@[simp] theorem enterRunning_fb (s : State) : (enterRunning s).fb = s.fb := by
  unfold enterRunning; split <;> rfl
@[simp] theorem enterRunning_listeners (s : State) : (enterRunning s).listeners = s.listeners := by
  unfold enterRunning; split <;> rfl
@[simp] theorem enterRunning_intervalMs (s : State) : (enterRunning s).intervalMs = s.intervalMs := by
  unfold enterRunning; split <;> rfl
@[simp] theorem enterRunning_maxListeners (s : State) : (enterRunning s).maxListeners = s.maxListeners := by
  unfold enterRunning; split <;> rfl
@[simp] theorem enterRunning_clockMs (s : State) : (enterRunning s).clockMs = s.clockMs := by
  unfold enterRunning; split <;> rfl
@[simp] theorem enterRunning_inputs (s : State) : (enterRunning s).inputs = s.inputs := by
  unfold enterRunning; split <;> rfl
@[simp] theorem enterRunning_outputs (s : State) : (enterRunning s).outputs = s.outputs := by
  unfold enterRunning; split <;> rfl

/-! ### elapse -/

@[simp] theorem elapse_cfgMin (ms : Nat) (s : State) : (elapse ms s).cfgMin = s.cfgMin := rfl
@[simp] theorem elapse_cfgMax (ms : Nat) (s : State) : (elapse ms s).cfgMax = s.cfgMax := rfl
@[simp] theorem elapse_cfgDefault (ms : Nat) (s : State) : (elapse ms s).cfgDefault = s.cfgDefault := rfl
@[simp] theorem elapse_ch (ms : Nat) (s : State) : (elapse ms s).ch = s.ch := rfl
@[simp] theorem elapse_fb (ms : Nat) (s : State) : (elapse ms s).fb = s.fb := rfl
@[simp] theorem elapse_mode (ms : Nat) (s : State) : (elapse ms s).mode = s.mode := rfl
@[simp] theorem elapse_listeners (ms : Nat) (s : State) : (elapse ms s).listeners = s.listeners := rfl
@[simp] theorem elapse_timer (ms : Nat) (s : State) : (elapse ms s).timer = s.timer := rfl
@[simp] theorem elapse_intervalMs (ms : Nat) (s : State) : (elapse ms s).intervalMs = s.intervalMs := rfl
@[simp] theorem elapse_maxListeners (ms : Nat) (s : State) : (elapse ms s).maxListeners = s.maxListeners := rfl
@[simp] theorem elapse_clockMs (ms : Nat) (s : State) : (elapse ms s).clockMs = s.clockMs + ms := rfl
@[simp] theorem elapse_inputs (ms : Nat) (s : State) : (elapse ms s).inputs = s.inputs := rfl
@[simp] theorem elapse_outputs (ms : Nat) (s : State) : (elapse ms s).outputs = s.outputs := rfl

/-! ### stopBroadcast and addListener, which branch on the state -/

@[simp] theorem stopBroadcast_cfgMin (s : State) : (stopBroadcast s).cfgMin = s.cfgMin := by
  unfold stopBroadcast; split <;> rfl
@[simp] theorem stopBroadcast_cfgMax (s : State) : (stopBroadcast s).cfgMax = s.cfgMax := by
  unfold stopBroadcast; split <;> rfl
@[simp] theorem stopBroadcast_cfgDefault (s : State) : (stopBroadcast s).cfgDefault = s.cfgDefault := by
  unfold stopBroadcast; split <;> rfl
@[simp] theorem stopBroadcast_ch (s : State) : (stopBroadcast s).ch = s.ch := by
  unfold stopBroadcast; split <;> rfl
@[simp] theorem stopBroadcast_fb (s : State) : (stopBroadcast s).fb = s.fb := by
  unfold stopBroadcast; split <;> rfl
@[simp] theorem stopBroadcast_intervalMs (s : State) : (stopBroadcast s).intervalMs = s.intervalMs := by
  unfold stopBroadcast; split <;> rfl
@[simp] theorem stopBroadcast_maxListeners (s : State) : (stopBroadcast s).maxListeners = s.maxListeners := by
  unfold stopBroadcast; split <;> rfl
@[simp] theorem stopBroadcast_clockMs (s : State) : (stopBroadcast s).clockMs = s.clockMs := by
  unfold stopBroadcast; split <;> rfl
@[simp] theorem stopBroadcast_inputs (s : State) : (stopBroadcast s).inputs = s.inputs := by
  unfold stopBroadcast; split <;> rfl
@[simp] theorem stopBroadcast_outputs (s : State) : (stopBroadcast s).outputs = s.outputs := by
  unfold stopBroadcast; split <;> rfl
@[simp] theorem stopBroadcast_mode (s : State) : (stopBroadcast s).mode = .idle := by
  unfold stopBroadcast; split <;> simp_all

@[simp] theorem addListener_cfgMin (l : Listener) (s : State) : (addListener l s).cfgMin = s.cfgMin := by
  unfold addListener; split <;> rfl
@[simp] theorem addListener_cfgMax (l : Listener) (s : State) : (addListener l s).cfgMax = s.cfgMax := by
  unfold addListener; split <;> rfl
@[simp] theorem addListener_cfgDefault (l : Listener) (s : State) : (addListener l s).cfgDefault = s.cfgDefault := by
  unfold addListener; split <;> rfl
@[simp] theorem addListener_ch (l : Listener) (s : State) : (addListener l s).ch = s.ch := by
  unfold addListener; split <;> rfl
@[simp] theorem addListener_fb (l : Listener) (s : State) : (addListener l s).fb = s.fb := by
  unfold addListener; split <;> rfl
@[simp] theorem addListener_mode (l : Listener) (s : State) : (addListener l s).mode = s.mode := by
  unfold addListener; split <;> rfl
@[simp] theorem addListener_timer (l : Listener) (s : State) : (addListener l s).timer = s.timer := by
  unfold addListener; split <;> rfl
@[simp] theorem addListener_intervalMs (l : Listener) (s : State) : (addListener l s).intervalMs = s.intervalMs := by
  unfold addListener; split <;> rfl
@[simp] theorem addListener_maxListeners (l : Listener) (s : State) : (addListener l s).maxListeners = s.maxListeners := by
  unfold addListener; split <;> rfl
@[simp] theorem addListener_clockMs (l : Listener) (s : State) : (addListener l s).clockMs = s.clockMs := by
  unfold addListener; split <;> rfl
@[simp] theorem addListener_inputs (l : Listener) (s : State) : (addListener l s).inputs = s.inputs := by
  unfold addListener; split <;> rfl

end Sys2Proof.Machine
end

