-- ==== Sys2Proof/Laws/Units.lean ====
section
/-! SUPPORT. Spec lemmas of the pure units: sign extension, the clamp unit, the channel index, byte pairs, and the loops over
the channels below a limit. -/

namespace Sys2Proof.Machine

/-! ### Sign extension and the clamp unit -/

theorem sext32_eq_toInt (w : Word) : sext32 w = w.toInt := by
  unfold sext32
  rw [BitVec.toInt_eq_toNat_cond]
  split <;> split <;> omega

/-- `sext_32` undoes the two's-complement encoding of an int32 value. -/
theorem sext32_ofInt (v : Int) (h : -2 ^ 31 ≤ v ∧ v ≤ 2 ^ 31 - 1) : sext32 (BitVec.ofInt 32 v) = v := by
  rw [sext32_eq_toInt, BitVec.toInt_ofInt]
  exact Int.bmod_eq_of_le (by omega) (by omega)

/-- What the clamp unit returns, as an integer: raw limited from below, then from above. -/
theorem clamp_toNat (lo hi : Half) (raw : Int) :
    ((clamp lo hi raw).toNat : Int) =
      if raw < lo.toNat then (lo.toNat : Int) else if raw > hi.toNat then (hi.toNat : Int) else raw := by
  have hhi := hi.isLt
  unfold clamp
  split
  · rfl
  · split
    · rfl
    · rw [BitVec.toNat_ofInt]
      have : raw % ((2 ^ 16 : Nat) : Int) = raw := Int.emod_eq_of_lt (by omega) (by omega)
      omega

theorem clamp_inRange {lo hi : Half} (h : lo.toNat ≤ hi.toNat) (raw : Int) :
    lo.toNat ≤ (clamp lo hi raw).toNat ∧ (clamp lo hi raw).toNat ≤ hi.toNat := by
  have := clamp_toNat lo hi raw
  split at this
  · omega
  · split at this <;> omega

/-! ### The channel index -/

theorem channelIndex_eq_some_iff (idx : BitVec 8) (i : Fin 14) : channelIndex idx = some i ↔ idx.toNat = i.val := by
  unfold channelIndex
  split
  · simp [Fin.ext_iff]
  · have := i.isLt
    simp; omega

theorem channelIndex_eq_none_iff (idx : BitVec 8) : channelIndex idx = none ↔ 14 ≤ idx.toNat := by
  unfold channelIndex
  split <;> simp <;> omega

/-! ### Byte pairs -/

@[simp] theorem rdle16_bytes (v : Half) : rdle16 (lowByte v) (highByte v) = v := by
  apply BitVec.eq_of_getLsbD_eq
  intro i hi
  simp only [rdle16, lowByte, highByte, BitVec.getLsbD_append, BitVec.getLsbD_extractLsb']
  by_cases h : i < 8
  · simp [h]
  · have : i - 8 < 8 := by omega
    have : 8 + (i - 8) = i := by omega
    simp_all

theorem lowByte_toNat (v : Half) : (lowByte v).toNat = v.toNat % 256 := by
  simp [lowByte, BitVec.extractLsb'_toNat]

theorem highByte_toNat (v : Half) : (highByte v).toNat = v.toNat / 256 := by
  have := v.isLt
  simp [highByte, BitVec.extractLsb'_toNat, Nat.shiftRight_eq_div_pow]
  omega

theorem rdle16_toNat (lo hi : Byte) : (rdle16 lo hi).toNat = hi.toNat * 0x100 + lo.toNat := by
  have := lo.isLt
  rw [rdle16, BitVec.toNat_append, ← Nat.shiftLeft_add_eq_or_of_lt this, Nat.shiftLeft_eq]

@[simp] theorem lowByte_rdle16 (lo hi : Byte) : lowByte (rdle16 lo hi) = lo := by
  have := lo.isLt
  apply BitVec.eq_of_toNat_eq
  rw [lowByte_toNat, rdle16_toNat]; omega

@[simp] theorem highByte_rdle16 (lo hi : Byte) : highByte (rdle16 lo hi) = hi := by
  have := lo.isLt
  apply BitVec.eq_of_toNat_eq
  rw [highByte_toNat, rdle16_toNat]; omega

/-! ### The response word -/

/-- The fields of a response word (R72). -/
theorem responseWord_fields (st : Status) (c : BitVec 4) :
    (responseWord st c).extractLsb' 12 20 = 0#20 ∧ (responseWord st c).extractLsb' 0 8 = st.code ∧
      (responseWord st c).extractLsb' 8 4 = c := by
  cases st <;> revert c <;> decide

theorem responseWord_ok (n : BitVec 4) : responseWord .ok n = BitVec.ofNat 32 (n.toNat * 0x100) := by
  revert n; decide

/-! ### Loops over channels -/

@[simp] theorem mem_channelsBelow (n : Nat) (i : Fin 14) : i ∈ channelsBelow n ↔ i.val < n := by
  simp [channelsBelow]

theorem channelsBelow_succ : ∀ n, (h : n < 14) → channelsBelow (n + 1) = channelsBelow n ++ [⟨n, h⟩] := by
  decide

theorem channelsBelow_of_ge {n : Nat} (h : 14 ≤ n) : channelsBelow n = List.finRange 14 := by
  refine List.filter_eq_self.2 fun i _ => ?_
  have := i.isLt
  simp; omega

/-- A loop that sets register j to f j for every j of a list. -/
theorem foldl_set_get (f : Fin 14 → Half) (l : List (Fin 14)) (ch : Channels) (k : Fin 14) :
    (l.foldl (fun ch j => ch.set j.val (f j)) ch)[k.val] = if k ∈ l then f k else ch[k.val] := by
  induction l generalizing ch with
  | nil => simp
  | cons j l ih =>
    rw [List.foldl_cons, ih]
    by_cases hk : k ∈ l
    · simp [hk]
    · by_cases hj : k = j
      · simp [hj]
      · have : j.val ≠ k.val := fun h => hj (Fin.ext h.symm)
        simp [hk, hj, this]

/-- Everything the store loop does to one channel (R82): the channels below the count are written, the others kept. -/
theorem storeAll_get (lo hi : Half) (n : Nat) (data : DataWords) (ch : Channels) (k : Fin 14) :
    (storeAll lo hi n data ch)[k.val] = if k.val < n then clamp lo hi (sext32 data[k.val]) else ch[k.val] := by
  unfold storeAll
  rw [foldl_set_get (fun j => clamp lo hi (sext32 data[j.val]))]
  simp

end Sys2Proof.Machine
end

