-- ==== Sys2Proof/Laws/Frame.lean ====
section
/-! SUPPORT. Spec lemmas of the frame serializer: which byte each writer writes, what the checksum unit computes, and everything
the encode operation does to the frame. -/

namespace Sys2Proof.Machine

/-! ### The writers, byte by byte -/

theorem writeHeader_get (fb : Frame) (k : Nat) (hk : k < 32) :
    (writeHeader fb)[k] = if k = 0 then 0x20#8 else if k = 1 then 0x40#8 else fb[k] := by
  unfold writeHeader Config.hdr0 Config.hdr1
  simp only [Vector.getElem_set]
  split <;> split <;> first | omega | simp_all [eq_comm]

theorem writeField_get (i : Fin 14) (v : Half) (fb : Frame) (k : Nat) (hk : k < 32) :
    (writeField i v fb)[k] =
      if k = 2 + 2 * i.val then lowByte v else if k = 3 + 2 * i.val then highByte v else fb[k] := by
  unfold writeField
  simp only [Vector.getElem_set]
  split <;> split <;> first | omega | simp_all [eq_comm]

theorem writeChecksum_get (c : Half) (fb : Frame) (k : Nat) (hk : k < 32) :
    (writeChecksum c fb)[k] = if k = 30 then lowByte c else if k = 31 then highByte c else fb[k] := by
  unfold writeChecksum
  simp only [Vector.getElem_set]
  split <;> split <;> first | omega | simp_all [eq_comm]

/-- A run of the multiplexer leaves every byte outside the channel fields of its list. -/
theorem foldl_writeField_other (ch : Channels) (l : List (Fin 14)) (fb : Frame) (k : Nat) (hk : k < 32)
    (hout : ∀ i ∈ l, k ≠ 2 + 2 * i.val ∧ k ≠ 3 + 2 * i.val) :
    (l.foldl (fun fb i => writeField i ch[i.val] fb) fb)[k] = fb[k] := by
  induction l generalizing fb with
  | nil => rfl
  | cons j l ih =>
    rw [List.foldl_cons, ih _ (fun i hi => hout i (List.mem_cons_of_mem _ hi)), writeField_get]
    have := hout j List.mem_cons_self
    simp [this.1, this.2]

/-- A run of the multiplexer writes the low byte of each channel of its list. -/
theorem foldl_writeField_low (ch : Channels) (l : List (Fin 14)) (fb : Frame) (i : Fin 14) :
    (l.foldl (fun fb i => writeField i ch[i.val] fb) fb)[2 + 2 * i.val]'(by omega) =
      if i ∈ l then lowByte ch[i.val] else fb[2 + 2 * i.val]'(by omega) := by
  induction l generalizing fb with
  | nil => simp
  | cons j l ih =>
    rw [List.foldl_cons, ih]
    by_cases hi : i ∈ l
    · simp [hi]
    · by_cases hj : i = j
      · simp [hj, writeField_get]
      · have h1 : i.val ≠ j.val := fun h => hj (Fin.ext h)
        have h2 : 2 + 2 * i.val ≠ 3 + 2 * j.val := by omega
        simp [hi, hj, writeField_get, h1, h2]

/-- A run of the multiplexer writes the high byte of each channel of its list. -/
theorem foldl_writeField_high (ch : Channels) (l : List (Fin 14)) (fb : Frame) (i : Fin 14) :
    (l.foldl (fun fb i => writeField i ch[i.val] fb) fb)[3 + 2 * i.val]'(by omega) =
      if i ∈ l then highByte ch[i.val] else fb[3 + 2 * i.val]'(by omega) := by
  induction l generalizing fb with
  | nil => simp
  | cons j l ih =>
    rw [List.foldl_cons, ih]
    by_cases hi : i ∈ l
    · simp [hi]
    · by_cases hj : i = j
      · simp [hj, writeField_get]
      · have h1 : i.val ≠ j.val := fun h => hj (Fin.ext h)
        have h2 : 3 + 2 * i.val ≠ 2 + 2 * j.val := by omega
        simp [hi, hj, writeField_get, h1, h2]

/-! ### The encode operation, byte by byte (R104) -/

theorem encodeFrame_header (limit : Nat) (s : State) :
    (encodeFrame limit s).fb[0] = 0x20#8 ∧ (encodeFrame limit s).fb[1] = 0x40#8 := by
  simp only [encodeFrame_fb, writeChecksum_get, writeFields]
  constructor <;>
    rw [if_neg (by omega), if_neg (by omega),
      foldl_writeField_other _ _ _ _ _ (fun i _ => by omega), writeHeader_get] <;> simp

theorem encodeFrame_field_low (limit : Nat) (s : State) (i : Fin 14) :
    (encodeFrame limit s).fb[2 + 2 * i.val] = if i.val < limit then lowByte s.ch[i.val] else s.fb[2 + 2 * i.val] := by
  have := i.isLt
  simp only [encodeFrame_fb, writeChecksum_get, writeFields]
  rw [if_neg (by omega), if_neg (by omega), foldl_writeField_low, writeHeader_get,
    if_neg (by omega : ¬ 2 + 2 * i.val = 0), if_neg (by omega : ¬ 2 + 2 * i.val = 1)]
  simp

theorem encodeFrame_field_high (limit : Nat) (s : State) (i : Fin 14) :
    (encodeFrame limit s).fb[3 + 2 * i.val] = if i.val < limit then highByte s.ch[i.val] else s.fb[3 + 2 * i.val] := by
  have := i.isLt
  simp only [encodeFrame_fb, writeChecksum_get, writeFields]
  rw [if_neg (by omega), if_neg (by omega), foldl_writeField_high, writeHeader_get,
    if_neg (by omega : ¬ 3 + 2 * i.val = 0), if_neg (by omega : ¬ 3 + 2 * i.val = 1)]
  simp

theorem encodeFrame_checksum (limit : Nat) (s : State) :
    (encodeFrame limit s).fb[30] = lowByte (checksum limit s.ch) ∧
      (encodeFrame limit s).fb[31] = highByte (checksum limit s.ch) := by
  simp [encodeFrame_fb, writeChecksum_get]

/-- The fields of the frame after an encode: CH below the limit, the field as it was at and above it. -/
theorem fieldValue_encodeFrame (limit : Nat) (s : State) (i : Fin 14) :
    fieldValue (encodeFrame limit s) i = if i.val < limit then s.ch[i.val] else fieldValue s i := by
  unfold fieldValue
  rw [encodeFrame_field_low, encodeFrame_field_high]
  split <;> simp

theorem storedChecksum_encodeFrame (limit : Nat) (s : State) :
    storedChecksum (encodeFrame limit s) = checksum limit s.ch := by
  unfold storedChecksum
  rw [(encodeFrame_checksum limit s).1, (encodeFrame_checksum limit s).2, rdle16_bytes]

/-- Two frames with equal header bytes, field bytes and checksum bytes are equal (R41). -/
theorem frame_ext {x y : Frame} (h0 : x[0] = y[0]) (h1 : x[1] = y[1])
    (hl : ∀ i : Fin 14, x[2 + 2 * i.val] = y[2 + 2 * i.val]) (hh : ∀ i : Fin 14, x[3 + 2 * i.val] = y[3 + 2 * i.val])
    (h30 : x[30] = y[30]) (h31 : x[31] = y[31]) : x = y := by
  ext k hk
  rcases (by omega : k = 0 ∨ k = 1 ∨ k = 30 ∨ k = 31 ∨ (2 ≤ k ∧ k < 30)) with rfl | rfl | rfl | rfl | hk
  · rw [h0]
  · rw [h1]
  · rw [h30]
  · rw [h31]
  · rcases Nat.mod_two_eq_zero_or_one k with e | e
    · have := hl ⟨(k - 2) / 2, by omega⟩
      simp only [(by omega : 2 + 2 * ((k - 2) / 2) = k)] at this
      rw [this]
    · have := hh ⟨(k - 3) / 2, by omega⟩
      simp only [(by omega : 3 + 2 * ((k - 3) / 2) = k)] at this
      rw [this]

/-! ### The checksum unit (R102, R103) -/

theorem channelBytes_le (v : Half) : channelBytes v ≤ 510 := by
  have := (lowByte v).isLt
  have := (highByte v).isLt
  unfold channelBytes
  omega

theorem byteSum_succ {n : Nat} (h : n < 14) (ch : Channels) :
    byteSum (n + 1) ch = byteSum n ch + channelBytes ch[n] := by
  simp only [byteSum, channelsBelow_succ n h, List.map_append, List.sum_append, List.map_cons, List.map_nil,
    List.sum_cons, List.sum_nil]
  omega

theorem checksum_succ {n : Nat} (h : n < 14) (ch : Channels) :
    checksum (n + 1) ch = checksum n ch - (lowByte ch[n]).setWidth 16 - (highByte ch[n]).setWidth 16 := by
  simp [checksum, channelsBelow_succ n h]

@[simp] theorem byteSum_zero (ch : Channels) : byteSum 0 ch = 0x60 := rfl

@[simp] theorem checksum_zero (ch : Channels) : checksum 0 ch = 0xFF9F#16 := rfl

theorem byteSum_le {n : Nat} (h : n ≤ 14) (ch : Channels) : byteSum n ch ≤ 0x60 + 510 * n := by
  induction n with
  | zero => simp
  | succ n ih =>
    have := ih (by omega)
    have := channelBytes_le ch[n]
    rw [byteSum_succ h]; omega

/-- The running subtraction never wraps: the checksum is 0xFFFF − S(limit) (R103(a), (b)). -/
theorem checksum_toNat {n : Nat} (h : n ≤ 14) (ch : Channels) : (checksum n ch).toNat = 0xFFFF - byteSum n ch := by
  induction n with
  | zero => simp
  | succ n ih =>
    have ih := ih (by omega)
    have hle := byteSum_le h ch
    rw [byteSum_succ h] at hle ⊢
    have h1 := (lowByte ch[n]).isLt
    have h2 := (highByte ch[n]).isLt
    simp only [channelBytes] at hle ⊢
    rw [checksum_succ h, BitVec.toNat_sub, BitVec.toNat_sub, BitVec.toNat_setWidth, BitVec.toNat_setWidth, ih]
    omega

/-! ### Sums of frame bytes -/

theorem frameSum_succ {k : Nat} (h : k < 32) (fb : Frame) : frameSum (k + 1) fb = frameSum k fb + fb[k].toNat := by
  unfold frameSum
  rw [List.take_add_one]
  simp [h]

@[simp] theorem frameSum_zero (fb : Frame) : frameSum 0 fb = 0 := rfl

theorem frameSum_two (fb : Frame) : frameSum 2 fb = fb[0].toNat + fb[1].toNat := by
  rw [frameSum_succ (by omega), frameSum_succ (by omega)]; simp

theorem frameSum_field (s : State) (i : Fin 14) :
    frameSum (2 + 2 * (i.val + 1)) s.fb = frameSum (2 + 2 * i.val) s.fb + channelBytes (fieldValue s i) := by
  have := i.isLt
  have e : 2 + 2 * (i.val + 1) = (2 + 2 * i.val) + 1 + 1 := by omega
  rw [e, frameSum_succ (by omega), frameSum_succ (by omega)]
  have e3 : (2 + 2 * i.val) + 1 = 3 + 2 * i.val := by omega
  simp only [channelBytes, fieldValue, lowByte_rdle16, highByte_rdle16, e3]
  omega

/-- After an encode the bytes up to the limit sum to S(limit). -/
theorem frameSum_encodeFrame (s : State) {limit n : Nat} (hn : n ≤ limit) (hl : limit ≤ 14) :
    frameSum (2 + 2 * n) (encodeFrame limit s).fb = byteSum n s.ch := by
  induction n with
  | zero =>
    rw [frameSum_two, (encodeFrame_header limit s).1, (encodeFrame_header limit s).2]; rfl
  | succ n ih =>
    have h14 : n < 14 := by omega
    have := frameSum_field (encodeFrame limit s) ⟨n, h14⟩
    rw [this, ih (by omega), byteSum_succ h14, fieldValue_encodeFrame, if_pos (by simp; omega)]

theorem frameSum_mono {j k : Nat} (h : j ≤ k) (hk : k ≤ 32) (fb : Frame) : frameSum j fb ≤ frameSum k fb := by
  induction k with
  | zero => simp_all
  | succ k ih =>
    rcases Nat.lt_or_ge j (k + 1) with hj | hj
    · have := ih (by omega) (by omega)
      rw [frameSum_succ (by omega)]; omega
    · have : j = k + 1 := by omega
      rw [this]

theorem frameSum_le {k : Nat} (hk : k ≤ 32) (fb : Frame) : frameSum k fb ≤ 255 * k := by
  induction k with
  | zero => simp
  | succ k ih =>
    have := ih (by omega)
    have := fb[k].isLt
    rw [frameSum_succ (by omega)]; omega

end Sys2Proof.Machine
end

