-- ==== Sys2Proof/Laws/PerInstr.lean ====
section
/-! SUPPORT. Families of statements made instruction by instruction (LAWS.json). OpcodeMap: the header of every encoded
well-formed command is admitted by its own row of the opcode map (spec/30_encoding.md R67). -/

namespace Sys2Proof

/-- Masking the header of a counted command leaves its opcode. -/
theorem headerWord_counted_mask : ∀ (op : BitVec 4) (n : BitVec 4),
    headerWord op 0#8 n &&& 0xFFFFF0FF#32 = headerWord op 0#8 0#4 := by
  decide

/-- Masking the header of an indexed command leaves its opcode. -/
theorem headerWord_indexed_mask_setone : ∀ idx : BitVec 8,
    headerWord 0x2#4 idx 0#4 &&& 0xFF00FFFF#32 = 0x20000000#32 := by
  decide

theorem headerWord_indexed_mask_updch : ∀ idx : BitVec 8,
    headerWord 0x5#4 idx 0#4 &&& 0xFF00FFFF#32 = 0x50000000#32 := by
  decide

end Sys2Proof

namespace Sys2Proof.Laws.OpcodeMap

/-- The row of a well-formed command admits its encoded header (R67). -/
def Statement (i : Instr) : Prop := i.wf = true → (opcodeRow i).admits (encode i).header = true

theorem setall (n : BitVec 4) (data : DataWords) : Statement (.setall n data) := by
  intro h
  have : headerWord 0x1#4 0#8 0#4 = 0x10000000#32 := by decide
  simpa [OpcodeRow.admits, opcodeRow, encode, headerWord_counted_mask, this] using (show countLegal _ = true from h)

theorem setone (idx : BitVec 8) (data : DataWords) : Statement (.setone idx data) := by
  intro _
  simp [OpcodeRow.admits, opcodeRow, encode, headerWord_indexed_mask_setone]

theorem encode (limit : BitVec 4) : Statement (.encode limit) := by
  intro h
  have : headerWord 0x3#4 0#8 0#4 = 0x30000000#32 := by decide
  simpa [OpcodeRow.admits, opcodeRow, Sys2Proof.encode, headerWord_counted_mask, this] using (show countLegal _ = true from h)

theorem update (n : BitVec 4) (data : DataWords) : Statement (.update n data) := by
  intro h
  have : headerWord 0x4#4 0#8 0#4 = 0x40000000#32 := by decide
  simpa [OpcodeRow.admits, opcodeRow, Sys2Proof.encode, headerWord_counted_mask, this] using (show countLegal _ = true from h)

theorem updch (idx : BitVec 8) (data : DataWords) : Statement (.updch idx data) := by
  intro _
  simp [OpcodeRow.admits, opcodeRow, Sys2Proof.encode, headerWord_indexed_mask_updch]

end Sys2Proof.Laws.OpcodeMap
end

