-- ==== Sys2Proof/Laws/Step.lean ====
section
/-! SUPPORT. What one step can do, said once: the step equation of each kind of input, the five commands' two or three outcomes,
and how the Broadcaster's operations change the host's state. -/

namespace Sys2Proof.Machine

/-! ### The step on each input -/

theorem step_nil {s : State} (h : s.inputs = []) : step s = .next s := by
  simp [step, takeInput, h]

theorem step_cons {s : State} {i : Input} {rest : List Input} (h : s.inputs = i :: rest) :
    step s = perform i { s with inputs := rest } := by
  simp [step, takeInput, h]

/-- The step after `withFetchWord` runs the transaction of that word. -/
theorem step_withFetchWord (s : State) (nbits w : Nat) :
    step (s.withFetchWord nbits w) = runCommand (tableTransaction nbits w) s :=
  rfl

theorem run_zero (s : State) : Host.Core.run core 0 s = .next s := rfl

theorem run_succ (n : Nat) (s : State) :
    Host.Core.run core (n + 1) s =
      match step s with
      | .next t => Host.Core.run core n t
      | .fault r => .fault r
      | .refused r => .refused r := by
  have : core.step s = step s := rfl
  simp only [Host.Core.run, this]
  cases step s <;> rfl

/-- A run whose first step answers goes on from there. -/
theorem run_succ_of_step {n : Nat} {s t : State} (h : step s = .next t) :
    Host.Core.run core (n + 1) s = Host.Core.run core n t := by
  rw [run_succ, h]

/-! ### Every outcome of a command -/

theorem exec_setall {n : BitVec 4} (h : n.toNat ≤ 14) (data : DataWords) (s : State) :
    exec (.setall n data) s = .next (respond .ok n (storeChannels n.toNat data s)) := by
  simp [exec, execSetall, countLegal, h]

theorem exec_setone {idx : BitVec 8} {k : Fin 14} (h : channelIndex idx = some k) (data : DataWords) (s : State) :
    exec (.setone idx data) s = .next (respond .ok 0#4 (storeChannel k (sext32 data[0]) s)) := by
  simp [exec, execSetone, h]

theorem exec_encode {limit : BitVec 4} (h : limit.toNat ≤ 14) (s : State) :
    exec (.encode limit) s = .next (respond .ok 0#4 (encodeFrame limit.toNat s)) := by
  simp [exec, execEncode, countLegal, h]

theorem exec_update {n : BitVec 4} (h : n.toNat ≤ 14) (data : DataWords) (s : State) :
    exec (.update n data) s = .next (respond .ok n (encodeFrame n.toNat (storeChannels n.toNat data s))) := by
  simp [exec, execUpdate, countLegal, h]

theorem exec_updch {idx : BitVec 8} {k : Fin 14} (h : channelIndex idx = some k) (data : DataWords) (s : State) :
    exec (.updch idx data) s = .next (respond .ok 0#4 (encodeFrame 14 (storeChannel k (sext32 data[0]) s))) := by
  simp [exec, execUpdch, h]

/-- SETONE and UPDCH with an index out of bounds (R131). -/
theorem exec_outOfBounds {idx : BitVec 8} (h : 14 ≤ idx.toNat) (data : DataWords) (s : State) :
    exec (.setone idx data) s = .next (respond .outOfBounds 0#4 s) ∧
      exec (.updch idx data) s = .next (respond .outOfBounds 0#4 s) := by
  simp [exec, execSetone, execUpdch, (channelIndex_eq_none_iff idx).2 h]

/-- A term with no legal header answers ILLEGAL_COMMAND. -/
theorem exec_illegal {i : Instr} (h : i.wf = false) (s : State) : exec i s = .next (respond .illegalCommand 0#4 s) := by
  cases i <;> simp_all [Instr.wf, exec, execSetall, execEncode, execUpdate]

/-- Everything a command can do to the state (R82, R84, R107, R112, R114): it answers a next state, and that state is one of
these. -/
theorem exec_cases (i : Instr) (s : State) :
    (i.wf = false ∧ exec i s = .next (respond .illegalCommand 0#4 s)) ∨
    (∃ idx data, (i = .setone idx data ∨ i = .updch idx data) ∧ 14 ≤ idx.toNat ∧
      exec i s = .next (respond .outOfBounds 0#4 s)) ∨
    (∃ n data, i = .setall n data ∧ n.toNat ≤ 14 ∧ exec i s = .next (respond .ok n (storeChannels n.toNat data s))) ∨
    (∃ idx data k, i = .setone idx data ∧ channelIndex idx = some k ∧
      exec i s = .next (respond .ok 0#4 (storeChannel k (sext32 data[0]) s))) ∨
    (∃ limit, i = .encode limit ∧ limit.toNat ≤ 14 ∧ exec i s = .next (respond .ok 0#4 (encodeFrame limit.toNat s))) ∨
    (∃ n data, i = .update n data ∧ n.toNat ≤ 14 ∧
      exec i s = .next (respond .ok n (encodeFrame n.toNat (storeChannels n.toNat data s)))) ∨
    (∃ idx data k, i = .updch idx data ∧ channelIndex idx = some k ∧
      exec i s = .next (respond .ok 0#4 (encodeFrame 14 (storeChannel k (sext32 data[0]) s)))) := by
  cases hw : i.wf with
  | false => exact .inl ⟨rfl, exec_illegal hw s⟩
  | true =>
    refine .inr ?_
    cases i with
    | setall n data =>
      have h : n.toNat ≤ 14 := of_decide_eq_true hw
      exact .inr (.inl ⟨n, data, rfl, h, exec_setall h data s⟩)
    | setone idx data =>
      cases h : channelIndex idx with
      | none =>
        have h := (channelIndex_eq_none_iff idx).1 h
        exact .inl ⟨idx, data, .inl rfl, h, (exec_outOfBounds h data s).1⟩
      | some k => exact .inr (.inr (.inl ⟨idx, data, k, rfl, h, exec_setone h data s⟩))
    | encode limit =>
      have h : limit.toNat ≤ 14 := of_decide_eq_true hw
      exact .inr (.inr (.inr (.inl ⟨limit, rfl, h, exec_encode h s⟩)))
    | update n data =>
      have h : n.toNat ≤ 14 := of_decide_eq_true hw
      exact .inr (.inr (.inr (.inr (.inl ⟨n, data, rfl, h, exec_update h data s⟩))))
    | updch idx data =>
      cases h : channelIndex idx with
      | none =>
        have h := (channelIndex_eq_none_iff idx).1 h
        exact .inl ⟨idx, data, .inr rfl, h, (exec_outOfBounds h data s).2⟩
      | some k => exact .inr (.inr (.inr (.inr (.inr ⟨idx, data, k, rfl, h, exec_updch h data s⟩))))

/-! ### The read port and the frame a tick hands over -/

theorem readPort_frame (s : State) (k : Nat) (h : k < 32) : readPort s (BitVec.ofNat 6 k) = s.fb[k] := by
  have hk : (BitVec.ofNat 6 k).toNat = k := by
    rw [BitVec.toNat_ofNat]; omega
  unfold readPort
  rw [dif_pos (by omega)]
  simp [hk]

theorem readPort_channel (s : State) (i : Fin 14) :
    readPort s (BitVec.ofNat 6 (0x20 + 2 * i.val)) = lowByte s.ch[i.val] ∧
      readPort s (BitVec.ofNat 6 (0x21 + 2 * i.val)) = highByte s.ch[i.val] := by
  have := i.isLt
  have h1 : (BitVec.ofNat 6 (0x20 + 2 * i.val)).toNat = 0x20 + 2 * i.val := by rw [BitVec.toNat_ofNat]; omega
  have h2 : (BitVec.ofNat 6 (0x21 + 2 * i.val)).toNat = 0x21 + 2 * i.val := by rw [BitVec.toNat_ofNat]; omega
  have e1 : (0x20 + 2 * i.val - 0x20) / 2 = i.val := by omega
  have e2 : (0x21 + 2 * i.val - 0x20) / 2 = i.val := by omega
  constructor
  · unfold readPort
    rw [dif_neg (by omega), dif_pos (by omega), if_pos (by omega)]
    simp [h1]
  · unfold readPort
    rw [dif_neg (by omega), dif_pos (by omega), if_neg (by omega)]
    simp only [h2, e2]

@[simp] theorem frameSnapshot_eq (s : State) : frameSnapshot s = s.fb := by
  ext k hk
  simp [frameSnapshot, readPort_frame s k hk]

/-! ### The Broadcaster -/

/-- What one listener that returns is given, for every listener of a list in order (R146). -/
def deliveries (ls : List Listener) (fb : Frame) : List Output := ls.map (fun l => .delivered l.id fb)

/-- A run through the listeners that answers a next state handed each of them the same frame, and changed nothing else
(R146). -/
theorem deliver_next {ls : List Listener} {s t : State} (h : deliver ls s = .next t) :
    (∀ l ∈ ls, l.behaviour = .returns) ∧ t = { s with outputs := s.outputs ++ deliveries ls s.fb } := by
  induction ls generalizing s with
  | nil =>
    simp only [deliver] at h
    cases h
    simp [deliveries]
  | cons l ls ih =>
    simp only [deliver] at h
    split at h
    · rename_i hb
      obtain ⟨hall, ht⟩ := ih h
      refine ⟨by simpa [hb] using hall, ?_⟩
      rw [ht]
      simp [deliveries, emit]
    · cases h
    · cases h

/-- Listeners that all return: the run completes. -/
theorem deliver_returns {ls : List Listener} (s : State) (h : ∀ l ∈ ls, l.behaviour = .returns) :
    deliver ls s = .next { s with outputs := s.outputs ++ deliveries ls s.fb } := by
  induction ls generalizing s with
  | nil => simp [deliver, deliveries]
  | cons l ls ih =>
    have hl := h l List.mem_cons_self
    simp only [deliver, hl]
    rw [ih _ (fun l' hl' => h l' (List.mem_cons_of_mem _ hl'))]
    simp [deliveries, emit]

theorem tick_idle {s : State} (h : s.mode = .idle) : tick s = .next s := by
  simp only [tick, h]

theorem tick_no_timer {s : State} (h : s.timer = none) : tick s = .next s := by
  cases hm : s.mode <;> simp only [tick, hm, h]

theorem tick_running {s : State} {tm : Timer} (hm : s.mode = .running) (ht : s.timer = some tm) :
    tick s = if tm.due s.clockMs then
        deliver s.listeners { s with timer := some { tm with lastTickMs := some s.clockMs } }
      else .next s := by
  simp only [tick, hm, ht]

/-- Everything a tick that answers a next state can do: nothing, or every listener was called (R146, R148). -/
theorem tick_next {s t : State} (h : tick s = .next t) :
    t = s ∨ ∃ tm, s.mode = .running ∧ s.timer = some tm ∧ tm.due s.clockMs = true ∧
      (∀ l ∈ s.listeners, l.behaviour = .returns) ∧
      t = { s with timer := some { tm with lastTickMs := some s.clockMs },
                   outputs := s.outputs ++ deliveries s.listeners s.fb } := by
  unfold tick at h
  split at h
  · rename_i tm hm ht
    split at h
    · rename_i hd
      obtain ⟨hall, hu⟩ := deliver_next h
      exact .inr ⟨tm, hm, ht, hd, hall, hu⟩
    · cases h; exact .inl rfl
  · cases h; exact .inl rfl
  · cases h; exact .inl rfl

/-- What steps 3 and 4 of `start` do when they answer: they put actions before the host's next ones. -/
theorem startStoring_next {vs : Option (List Int)} {s t : State} (h : startStoring vs s = .next t) :
    ∃ acts, t = { s with inputs := acts ++ s.inputs } := by
  unfold startStoring at h
  split at h
  · cases h; exact ⟨[.enterRunning], rfl⟩
  · split at h
    · cases h
      rename_i ts _
      exact ⟨issue ts ++ [.enterRunning], by simp⟩
    · cases h

/-- What `start` does when it answers: `stop`, then perhaps `listen`, then actions for later (R144). -/
theorem start_next {vs : Option (List Int)} {cb : Option Listener} {s t : State} (h : start vs cb s = .next t) :
    ∃ acts, ∃ u, (u = stopBroadcast s ∨ ∃ l, u = addListener l (stopBroadcast s)) ∧
      t = { u with inputs := acts ++ u.inputs } := by
  unfold start at h
  split at h
  · obtain ⟨acts, rfl⟩ := startStoring_next h
    exact ⟨acts, _, .inl rfl, rfl⟩
  · rename_i l
    split at h
    · split at h
      · cases h; exact ⟨[], _, .inr ⟨l, rfl⟩, rfl⟩
      · obtain ⟨acts, rfl⟩ := startStoring_next h
        exact ⟨acts, _, .inr ⟨l, rfl⟩, rfl⟩
    · obtain ⟨acts, rfl⟩ := startStoring_next h
      exact ⟨acts, _, .inr ⟨l, rfl⟩, rfl⟩

/-- What putting an assembly line or a host call into action does when it answers. -/
theorem runAsm_next {line : Asm} {s t : State} (h : runAsm line s = .next t) :
    ∃ ts, assemble line = some ts ∧ t = { s with inputs := issue ts ++ s.inputs } := by
  unfold runAsm at h
  split at h
  · rename_i ts hts
    cases h; exact ⟨ts, hts, rfl⟩
  · cases h

theorem runCall_next {c : HostCall} {s t : State} (h : runCall c s = .next t) :
    ∃ acts, hostActions c = .ok acts ∧ t = { s with inputs := acts ++ s.inputs } := by
  unfold runCall at h
  split at h
  · rename_i acts ha
    cases h; exact ⟨acts, ha, rfl⟩
  · cases h

end Sys2Proof.Machine
end

