-- ==== Sys2Proof/Tests/Slice0.lean ====
section
/-! SUPPORT. The model's own tests. Expected results come from spec/95_test_vectors.md (V and P numbers in the comments) and from
the spec's worked examples; the witnesses show that the hypotheses of the statements can be met. -/

namespace Sys2Proof.Tests

open Sys2Proof.Machine

/-! ### Helpers -/

/-- The state after reset with the given inputs waiting. -/
def waiting (inputs : List Input) : State := { State.reset with inputs := inputs }

/-- Data words from a list, zero after it. -/
def words (ws : List Word) : DataWords := Vector.ofFn (fun j : Fin 14 => ws.getD j.val 0#32)

/-- A frame as the vectors write it: header, the given bytes, then `DC 05` (1500) up to the checksum, then the checksum. -/
def defaultTail (fields : List Byte) (ck : List Byte) : List Byte :=
  [0x20#8, 0x40#8] ++ fields ++ (List.replicate ((28 - fields.length) / 2) [0xDC#8, 0x05#8]).flatten ++ ck

/-- The outcome is a next state of which the check holds. -/
def nextAnd (o : Host.Outcome State Fault Refusal) (check : State → Bool) : Bool :=
  match o with
  | .next t => check t
  | .fault _ => false
  | .refused _ => false

/-- One command, given as its words, run as the first after reset in a state with the given channels. -/
def afterCommand (h : Word) (ws : List Word) (s : State) (check : State → Bool) : Bool :=
  nextAnd (step { s with inputs := [.command ⟨h, words ws⟩] }) check

/-- Reset, then `SETALL 1000, 2000`: the start of the ENCODE vectors. -/
def storedTwo : State := { State.reset with ch := (State.reset.ch.set 0 1000#16).set 1 2000#16 }

/-- A host in Running with one listener that returns, after reset. -/
def broadcasting : State :=
  { State.reset with mode := .running, timer := some ⟨7, none⟩, listeners := [⟨1, .returns⟩] }

/-! ### WellFormed refuses an ill-formed term, check by check -/

theorem test_wf_setall_fifteen : (Instr.setall 15#4 zeroData).wf = false := by decide
theorem test_wf_encode_fifteen : (Instr.encode 15#4).wf = false := by decide
theorem test_wf_update_fifteen : (Instr.update 15#4 zeroData).wf = false := by decide
theorem test_wf_index_255 : (Instr.setone 255#8 zeroData).wf = true ∧ (Instr.updch 255#8 zeroData).wf = true := by decide

/-! ### Decoding words written out from the encodings of R82, R84, R107, R112, R114 -/

theorem test_decode_setall :
    decode ⟨0b0001_0000_00000000_0000_1110_00000000#32, words [7#32]⟩ = .ok (.setall 14#4 (words [7#32])) := rfl
theorem test_decode_setone :
    decode ⟨0b0010_0000_00001110_0000_0000_00000000#32, words [7#32]⟩ = .ok (.setone 14#8 (words [7#32])) := rfl
theorem test_decode_encode :
    decode ⟨0b0011_0000_00000000_0000_0000_00000000#32, words [7#32]⟩ = .ok (.encode 0#4) := rfl
theorem test_decode_update :
    decode ⟨0b0100_0000_00000000_0000_0011_00000000#32, words [7#32]⟩ = .ok (.update 3#4 (words [7#32])) := rfl
theorem test_decode_updch :
    decode ⟨0b0101_0000_11111111_0000_0000_00000000#32, words [7#32]⟩ = .ok (.updch 255#8 (words [7#32])) := rfl

/-- One header for each bullet of R68: V21, V22, V23, V28, V29 and an idle bus (D5). -/
theorem test_decode_illegal :
    decode ⟨0x10000F00#32, zeroData⟩ = .error .countFifteen ∧ decode ⟨0x10000301#32, zeroData⟩ = .error .reservedField ∧
    decode ⟨0x10010100#32, zeroData⟩ = .error .unusedField ∧ decode ⟨0x20000100#32, zeroData⟩ = .error .unusedField ∧
    decode ⟨0x2E0E0100#32, zeroData⟩ = .error .reservedField ∧ decode ⟨0#32, zeroData⟩ = .error .reservedOpcode ∧
    decode ⟨0x60000000#32, zeroData⟩ = .error .reservedOpcode := ⟨rfl, rfl, rfl, rfl, rfl, rfl, rfl⟩

theorem test_decodeTableWord :
    decodeTableWord 32 0x200D0000 = some (.setone 13#8 zeroData) ∧ decodeTableWord 32 0x30000F00 = none := by decide

/-- The table word runs as the first command after reset: `ENCODE 0` (R107, worked example: checksum bytes 9F FF). -/
theorem test_withFetchWord :
    nextAnd (step (State.reset.withFetchWord 32 0x30000000)) (fun t => t.fb[30] = 0x9F#8 && t.fb[31] = 0xFF#8) = true := by
  decide

/-! ### The units -/

/-- V1 to V12. -/
theorem test_clamp :
    ([999, 1000, 1001, 1500, 1999, 2000, 2001, 0, -1, -2 ^ 31, 2 ^ 31 - 1, 65535] : List Int).map (clamp 1000#16 2000#16) =
      [1000#16, 1000#16, 1001#16, 1500#16, 1999#16, 2000#16, 2000#16, 1000#16, 1000#16, 1000#16, 2000#16, 2000#16] := by
  decide

/-- The data words of V9, V10 and V11. -/
theorem test_sext32 : sext32 0xFFFFFFFF#32 = -1 ∧ sext32 0x80000000#32 = -2 ^ 31 ∧ sext32 0x7FFFFFFF#32 = 2 ^ 31 - 1 := by
  decide

/-- V14, V15, V16, V17. -/
theorem test_checksum :
    checksum 14 (Vector.replicate 14 1500#16) = 0xF351#16 ∧ checksum 14 (Vector.replicate 14 0xFFFF#16) = 0xE3BB#16 ∧
    checksum 14 (Vector.replicate 14 0#16) = 0xFF9F#16 ∧ checksum 1 (Vector.replicate 14 1500#16) = 0xFEBE#16 := by
  decide

/-! ### The commands -/

/-- V19. -/
theorem test_setall_clamps :
    afterCommand 0x10000200#32 [0x3E7#32, 0x9C4#32] State.reset (fun t =>
      t.ch.toList = [1000#16, 2000#16] ++ List.replicate 12 1500#16 && t.fb = State.reset.fb &&
      t.outputs = [.response 0x200#32]) = true := by decide

/-- V20: fourteen values, the last four clamped. -/
theorem test_setall_fourteen :
    afterCommand 0x10000E00#32 ((List.range 14).map (fun k => BitVec.ofNat 32 (1000 + 100 * k))) State.reset (fun t =>
      t.ch.toList = [1000#16, 1100#16, 1200#16, 1300#16, 1400#16, 1500#16, 1600#16, 1700#16, 1800#16, 1900#16, 2000#16,
        2000#16, 2000#16, 2000#16] && t.outputs = [.response 0xE00#32]) = true := by decide

/-- V25. -/
theorem test_setone_last_channel :
    afterCommand 0x200D0000#32 [0x9C4#32] State.reset (fun t =>
      t.ch.toList = List.replicate 13 1500#16 ++ [2000#16] && t.fb = State.reset.fb && t.outputs = [.response 0#32]) = true := by
  decide

/-- V26. -/
theorem test_setone_out_of_bounds :
    afterCommand 0x200E0000#32 [0x5DC#32] State.reset (fun t =>
      t.ch = State.reset.ch && t.fb = State.reset.fb && t.outputs = [.response 1#32]) = true := by decide

/-- V32: a partial encode. -/
theorem test_encode_two :
    afterCommand 0x30000200#32 [] storedTwo (fun t =>
      t.fb.toList = defaultTail [0xE8#8, 0x03#8, 0xD0#8, 0x07#8] [0xDD#8, 0xFD#8] && !decide (ckValid t) &&
      t.outputs = [.response 0#32]) = true := by decide

/-- V34: a full encode. -/
theorem test_encode_full :
    afterCommand 0x30000E00#32 [] storedTwo (fun t =>
      t.fb.toList = defaultTail [0xE8#8, 0x03#8, 0xD0#8, 0x07#8] [0x51#8, 0xF3#8] && decide (ckValid t)) = true := by decide

/-- V37: the document's scenario, with the checksum this spec's rules give (C3). -/
theorem test_update_three :
    afterCommand 0x40000300#32 [0x3E8#32, 0x7D0#32, 0x5DC#32] State.reset (fun t =>
      t.fb.toList = defaultTail [0xE8#8, 0x03#8, 0xD0#8, 0x07#8, 0xDC#8, 0x05#8] [0xFC#8, 0xFC#8] &&
      t.outputs = [.response 0x300#32]) = true := by decide

/-- P5, step 1: with CFG_MIN = 0 a partial frame is valid when every stale field is 0. -/
theorem test_update_partial_valid :
    nextAnd (runReset 0#16 0xFFFF#16 0#16 State.reset) (fun s => afterCommand 0x40000100#32 [0x1234#32] s (fun t =>
      t.fb.toList = [0x20#8, 0x40#8, 0x34#8, 0x12#8] ++ List.replicate 26 0#8 ++ [0x59#8, 0xFF#8] && decide (ckValid t))) =
      true := by decide

/-- V45: the full encode of UPDCH also repairs channels 0 and 1. -/
theorem test_updch_repairs :
    afterCommand 0x50050000#32 [0x6A4#32] storedTwo (fun t =>
      t.fb.toList = defaultTail [0xE8#8, 0x03#8, 0xD0#8, 0x07#8, 0xDC#8, 0x05#8, 0xDC#8, 0x05#8, 0xDC#8, 0x05#8, 0xA4#8, 0x06#8]
        [0x88#8, 0xF3#8] && decide (ckValid t) && t.outputs = [.response 0#32]) = true := by decide

/-- V44: the host's −1. -/
theorem test_updch_minus_one :
    afterCommand 0x50FF0000#32 [0x5DC#32] State.reset (fun t =>
      t.ch = State.reset.ch && t.fb = State.reset.fb && t.outputs = [.response 1#32]) = true := by decide

/-- V29: an illegal header with an index out of bounds is ILLEGAL_COMMAND (R69). -/
theorem test_illegal_wins :
    afterCommand 0x2E0E0100#32 [] State.reset (fun t => t.ch = State.reset.ch && t.outputs = [.response 2#32]) = true := by
  decide

/-! ### Reset and the read port -/

/-- V15: the reset frame of the largest configuration. -/
theorem test_reset_largest :
    nextAnd (step (waiting [.reset 0xFFFF#16 0xFFFF#16 0xFFFF#16])) (fun t =>
      t.fb.toList = [0x20#8, 0x40#8] ++ List.replicate 28 0xFF#8 ++ [0xBB#8, 0xE3#8]) = true := by decide

/-- V46, V47, V49, V50 and V51, after `SETONE 3, 1963` with no encode. -/
theorem test_readPort :
    ([0x00, 0x01, 0x1E, 0x1F, 0x08, 0x09, 0x26, 0x27, 0x3A, 0x3B, 0x3C, 0x3F] : List ReadAddr).map
      (readPort { State.reset with ch := State.reset.ch.set 3 1963#16 }) =
      [0x20#8, 0x40#8, 0x51#8, 0xF3#8, 0xDC#8, 0x05#8, 0xAB#8, 0x07#8, 0xDC#8, 0x05#8, 0x00#8, 0x00#8] := by decide

/-! ### The assembler and the host -/

/-- R71 with the operands of V24 written in hexadecimal and V41 written with a sign. -/
theorem test_parseLine :
    parseLine ['S', 'E', 'T', 'O', 'N', 'E', ' ', '0', ',', ' ', '0', 'x', '4', 'D', '2'] = some (.setone 0 1234) ∧
    parseLine ['U', 'P', 'D', 'C', 'H', ' ', '0', ',', ' ', '-', '5'] = some (.updch 0 (-5)) ∧
    parseLine ['S', 'E', 'T', 'A', 'L', 'L'] = some (.setall []) ∧
    parseLine ['E', 'N', 'C', 'O', 'D', 'E', ' ', '1', ',', '2'] = none := by decide

/-- V41: `UPDCH 0, -5`. -/
theorem test_assemble_updch :
    assemble (.updch 0 (-5)) = some [⟨0x50000000#32, words [0xFFFFFFFB#32]⟩] := by decide

/-- W4: index −1 is sent as 0xFF, and the value saturates (R74). -/
theorem test_host_mapping : hostIndex (-1) = 0xFF ∧ hostIndex 14 = 14 ∧ hostValue (2 ^ 40) = 2 ^ 31 - 1 := by decide

/-- W5: the eleventh `listen` fails and leaves ten listeners. -/
theorem test_listen_full :
    nextAnd (step { waiting [.listen ⟨11, .returns⟩] with listeners := List.replicate 10 ⟨1, .returns⟩ }) (fun t =>
      t.listeners.length = 10 && t.outputs = [.maxListenersExceeded]) = true := by decide

/-- A tick before 7 ms have passed since the last one fires nothing; one after 7 ms hands over the frame (R146, R148). -/
theorem test_tick_spacing :
    nextAnd (step { broadcasting with timer := some ⟨7, some 3⟩, clockMs := 9, inputs := [.tick] })
      (fun t => t.outputs = []) = true ∧
    nextAnd (step { broadcasting with timer := some ⟨7, some 3⟩, clockMs := 10, inputs := [.tick] })
      (fun t => t.outputs = [.delivered 1 resetFrame]) = true := by decide

/-! ### Witnesses: the hypotheses of the statements can be met, clause by clause at the ends of their ranges -/

theorem witness_DecodeAndEncodeAgree :
    (Instr.setall 14#4 zeroData).wf = true ∧ (Instr.encode 14#4).wf = true ∧
    decode ⟨0x50FF0000#32, words [1#32]⟩ = .ok (.updch 255#8 (words [1#32])) ∧
    ∀ limit, Instr.updch 255#8 (words [1#32]) ≠ .encode limit := ⟨rfl, rfl, rfl, by simp⟩

theorem witness_IllegalHeadersChangeNothing :
    (waiting [.command ⟨0x40000F00#32, zeroData⟩]).inputs = .command ⟨0x40000F00#32, zeroData⟩ :: [] ∧
    ∃ e, decode ⟨0x40000F00#32, zeroData⟩ = .error e := ⟨rfl, .countFifteen, rfl⟩

theorem witness_StepRunsTheDecodedCommand :
    (waiting [.command ⟨0x30000E00#32, zeroData⟩, .stop]).inputs = .command ⟨0x30000E00#32, zeroData⟩ :: [.stop] ∧
    decode ⟨0x30000E00#32, zeroData⟩ = .ok (.encode 14#4) := ⟨rfl, rfl⟩

theorem witness_EveryCommandEndsWithOneResponse :
    (waiting [.command ⟨0xFFFFFFFF#32, zeroData⟩]).inputs = .command ⟨0xFFFFFFFF#32, zeroData⟩ :: [] := rfl

/-- Both kinds of failing command, and a later run that answers. -/
theorem witness_FailedCommandIsAsIfNeverIssued :
    (waiting [.command ⟨0x200E0000#32, zeroData⟩, .read 0#6]).inputs = .command ⟨0x200E0000#32, zeroData⟩ :: [.read 0#6] ∧
    (∃ e, decode ⟨0x60000000#32, zeroData⟩ = .error e) ∧
    (14 ≤ (14#8).toNat ∧ decode ⟨0x200E0000#32, zeroData⟩ = .ok (.setone 14#8 zeroData)) ∧
    (14 ≤ (255#8).toNat ∧ decode ⟨0x50FF0000#32, zeroData⟩ = .ok (.updch 255#8 zeroData)) ∧
    ∃ u, Host.Core.run core 1 { waiting [] with inputs := [.read 0#6], outputs := [] } = .next u :=
  ⟨rfl, ⟨.reservedOpcode, rfl⟩, ⟨by decide, rfl⟩, ⟨by decide, rfl⟩, _, rfl⟩

/-- Two transactions with one header that differ in an unused data word only: DATA[1] of a SETALL of one value. -/
theorem witness_UnusedDataWordsHaveNoEffect :
    (words [5#32, 6#32])[1] ≠ (words [5#32, 7#32])[1] ∧
    ∀ j : Fin 14, j.val < (BitVec.extractLsb' 8 4 0x10000100#32).toNat →
      (words [5#32, 6#32])[j.val] = (words [5#32, 7#32])[j.val] := by decide

theorem witness_IdleMachineStaysAsItIs : State.reset.inputs = [] := rfl

/-- A step of each of the three outcomes. -/
theorem witness_OutputsAreNeverReadBack :
    (∃ t, step (waiting [.read 0#6]) = .next t) ∧
    step { broadcasting with listeners := [⟨1, .neverReturns⟩], inputs := [.tick] } = .fault .listenerNeverReturns ∧
    step (waiting [.reset 2#16 1#16 1#16]) = .refused .illFormedConfiguration := ⟨⟨_, rfl⟩, rfl, rfl⟩

theorem witness_ClampUnitValue :
    (999 : Int) < (1000#16).toNat ∧ (¬ (2001 : Int) < (1000#16).toNat ∧ (2001 : Int) > (2000#16).toNat) ∧
    (¬ (1000 : Int) < (1000#16).toNat ∧ ¬ (1000 : Int) > (2000#16).toNat) ∧
    (¬ (2000 : Int) < (1000#16).toNat ∧ ¬ (2000 : Int) > (2000#16).toNat) := by decide

theorem witness_ClampUnitLaws :
    (1000#16).toNat ≤ (2000#16).toNat ∧ ((1000#16).toNat : Int) ≤ 2000 ∧ (2000 : Int) ≤ (2000#16).toNat ∧
    (2000 : Int) ≤ 2001 := by decide

/-- SETALL, ENCODE and UPDATE at both ends of the legal counts, and at 15; also UpdateRoundTrip and the store-then-encode
statement. -/
theorem witness_counted_commands :
    (0#4).toNat ≤ 14 ∧ (14#4).toNat ≤ 14 ∧ (15#4).toNat = 15 ∧ (13#4).toNat < 14 := by decide

/-- SETONE and UPDCH at the last legal index and at the first and last index out of bounds. -/
theorem witness_indexed_commands : (13#8).toNat < 14 ∧ 14 ≤ (14#8).toNat ∧ 14 ≤ (255#8).toNat := by decide

/-- For each command a next state and an address that it leaves alone. -/
theorem witness_ReadPortFrameOfCommands :
    (∃ t, exec (.setall 14#4 zeroData) State.reset = .next t) ∧
    ¬ (0x20 ≤ (0x3C#6).toNat ∧ (0x3C#6).toNat < 0x20 + 2 * (14#4).toNat) ∧
    (∃ t, exec (.setone 13#8 zeroData) State.reset = .next t) ∧
    ¬ ((0x39#6).toNat = 0x20 + 2 * (13#8).toNat ∨ (0x39#6).toNat = 0x21 + 2 * (13#8).toNat) ∧
    (∃ t, exec (.encode 13#4) State.reset = .next t) ∧
    ¬ ((28#6).toNat < 2 + 2 * (13#4).toNat ∨ (28#6).toNat = 30 ∨ (28#6).toNat = 31) ∧
    (∃ t, exec (.update 13#4 zeroData) State.reset = .next t) ∧
    ¬ (0x20 ≤ (28#6).toNat ∧ (28#6).toNat < 0x20 + 2 * (13#4).toNat) ∧
    (∃ t, exec (.updch 0#8 zeroData) State.reset = .next t) ∧
    (0x20 ≤ (0x22#6).toNat ∧ ¬ ((0x22#6).toNat = 0x20 + 2 * (0#8).toNat ∨ (0x22#6).toNat = 0x21 + 2 * (0#8).toNat)) :=
  ⟨⟨_, exec_setall (by decide) _ _⟩, by decide, ⟨_, exec_setone (k := 13) rfl _ _⟩, by decide, ⟨_, exec_encode (by decide) _⟩,
    by decide, ⟨_, exec_update (by decide) _ _⟩, by decide, ⟨_, exec_updch (k := 0) rfl _ _⟩, by decide⟩

theorem witness_ChecksumUnitLaws : 0 ≤ 14 ∧ 14 ≤ 14 := by decide

/-- A state of the block invariant with CFG_MIN ≥ 1 and a stale channel. -/
theorem storedTwo_blockInv : BlockInv storedTwo :=
  ⟨by decide, by decide, by decide, by decide, 14, by decide, by decide⟩

theorem witness_PartialEncodeChecksumValidity :
    (13#4).toNat < 14 ∧ BlockInv storedTwo ∧ 1 ≤ storedTwo.cfgMin.toNat := ⟨by decide, storedTwo_blockInv, by decide⟩

theorem witness_FieldsFollowOnlyEncodes :
    (waiting [.command ⟨0x30000100#32, zeroData⟩]).inputs = .command ⟨0x30000100#32, zeroData⟩ :: [] ∧
    ∃ t, step (waiting [.command ⟨0x30000100#32, zeroData⟩]) = .next t := ⟨rfl, _, rfl⟩

theorem witness_OnlyResetWritesTheLatches :
    configOk 0#16 0xFFFF#16 0#16 = true ∧ (∀ a b c, Input.read 0#6 ≠ .reset a b c) ∧
    ∃ t, step (waiting [.read 0#6]) = .next t := ⟨rfl, by simp, _, rfl⟩

/-- A SETONE that changes CH. -/
theorem witness_OnlyStoringCommandsWriteChannels :
    ∃ t, exec (.setone 13#8 zeroData) State.reset = .next t ∧ t.ch ≠ State.reset.ch :=
  ⟨_, exec_setone (k := 13) rfl _ _, by decide⟩

/-- An ENCODE that changes FB. -/
theorem witness_OnlyEncodingCommandsWriteTheFrame :
    ∃ t, exec (.encode 0#4) State.reset = .next t ∧ t.fb ≠ State.reset.fb :=
  ⟨_, exec_encode (by decide) _, by decide⟩

/-- The invariant holds of a running broadcast with a tick waiting, and that tick answers. -/
theorem witness_EveryStepKeepsTheInvariant :
    Inv { broadcasting with inputs := [.tick] } ∧ ∃ t, step { broadcasting with inputs := [.tick] } = .next t :=
  ⟨⟨⟨by decide, by decide, by decide, by decide, 14, by decide, by decide⟩,
    ⟨by decide, by decide, by decide, by rintro t ⟨⟩; exact ⟨rfl, by simp⟩⟩⟩, _, rfl⟩

theorem witness_ReachableChannelsStayInRange :
    ∃ s, Host.Core.run core 1 { State.reset with inputs := [.read 0x3B#6] } = .next s := ⟨_, rfl⟩

theorem witness_ResetProcedure :
    (waiting [.reset 7#16 7#16 7#16]).inputs = .reset 7#16 7#16 7#16 :: [] ∧
    ((7#16).toNat ≤ (7#16).toNat ∧ (7#16).toNat ≤ (7#16).toNat) ∧
    ¬ ((7#16).toNat ≤ (6#16).toNat ∧ (6#16).toNat ≤ (9#16).toNat) ∧
    ¬ ((7#16).toNat ≤ (10#16).toNat ∧ (10#16).toNat ≤ (9#16).toNat) := by decide

theorem witness_ResetGivesTheResetBlock :
    { storedTwo with inputs := [.reset 1000#16 2000#16 1500#16] }.inputs = [.reset 1000#16 2000#16 1500#16] := rfl

/-- Each clause of the read map at the ends of its range. -/
theorem witness_ReadPortMap :
    (waiting [.read 0x3F#6]).inputs = .read 0x3F#6 :: [] ∧ (0#6).toNat = (0 : Fin 32).val ∧ (0x1F#6).toNat = (31 : Fin 32).val ∧
    (0x20#6).toNat = 0x20 + 2 * (0 : Fin 14).val ∧ (0x3A#6).toNat = 0x20 + 2 * (13 : Fin 14).val ∧
    (0x21#6).toNat = 0x21 + 2 * (0 : Fin 14).val ∧ (0x3B#6).toNat = 0x21 + 2 * (13 : Fin 14).val ∧
    0x3C ≤ (0x3C#6).toNat ∧ 0x3C ≤ (0x3F#6).toNat := by decide

theorem witness_UninterruptedReadsGiveASnapshot :
    (waiting (readsFrom 0x00 32 ++ [.stop])).inputs = readsFrom 0x00 32 ++ [.stop] ∧
    (waiting (readsFrom 0x20 28 ++ [.stop])).inputs = readsFrom 0x20 28 ++ [.stop] := ⟨rfl, rfl⟩

/-- Operands an assembler takes, at the ends of their ranges, and operands it refuses. -/
theorem witness_AssemblyLinesGiveTheirCommands :
    ([2 ^ 31 - 1, -2 ^ 31] : List Int).length ≤ 14 ∧
    (∀ v ∈ ([2 ^ 31 - 1, -2 ^ 31] : List Int), -2 ^ 31 ≤ v ∧ v ≤ 2 ^ 31 - 1) ∧
    14 < (List.replicate 15 (0 : Int)).length ∧ (∃ v ∈ ([2 ^ 31] : List Int), ¬ (-2 ^ 31 ≤ v ∧ v ≤ 2 ^ 31 - 1)) ∧
    ((0 : Int) ≤ 255 ∧ (255 : Int) ≤ 255) ∧ ¬ ((0 : Int) ≤ 256 ∧ (256 : Int) ≤ 255) ∧
    ((0 : Int) ≤ 14 ∧ (14 : Int) ≤ 14) ∧ ¬ ((0 : Int) ≤ 15 ∧ (15 : Int) ≤ 14) := by decide

/-- Lines and mapped calls that assemble to one command. -/
theorem witness_DocumentOperationsExpandToCommands :
    (∃ t, assemble (.setall [1]) = some [t]) ∧ (∃ t, assemble (.update (List.map hostValue [2 ^ 40])) = some [t]) ∧
    (∃ t, assemble (.setall (List.map hostValue [2 ^ 40])) = some [t]) ∧
    (∃ t, assemble (.updch (hostIndex (-1)) (hostValue 1)) = some [t]) ∧
    (∃ t, assemble (.setone (hostIndex 256) (hostValue 1)) = some [t]) ∧ ∃ t, assemble (.encode 14) = some [t] :=
  ⟨⟨_, rfl⟩, ⟨_, rfl⟩, ⟨_, rfl⟩, ⟨_, rfl⟩, ⟨_, rfl⟩, _, rfl⟩

theorem witness_HostOperandMapping :
    ¬ ((0 : Int) ≤ -1 ∧ (-1 : Int) ≤ 255) ∧ ¬ ((0 : Int) ≤ 256 ∧ (256 : Int) ≤ 255) ∧ (-2 ^ 31 - 1 : Int) < -2 ^ 31 ∧
    (2 ^ 31 - 1 : Int) < 2 ^ 31 ∧ 14 < (List.replicate 15 (0 : Int)).length := by decide

theorem witness_ListenAppendsOrFails :
    (waiting [.listen ⟨1, .returns⟩]).inputs = .listen ⟨1, .returns⟩ :: [] ∧
    State.reset.listeners.length ≠ State.reset.maxListeners ∧
    { State.reset with maxListeners := 0 }.listeners.length = { State.reset with maxListeners := 0 }.maxListeners := by decide

/-- `stop` in Running and in Idle, and a tick offered in Idle. -/
theorem witness_StopCancelsEverything :
    { broadcasting with inputs := [.stop, .tick] }.inputs = .stop :: [.tick] ∧ broadcasting.mode = .running ∧
    (waiting [.tick]).mode = .idle ∧ (waiting [.tick]).inputs = .tick :: [] ∧ Input.tick ≠ .enterRunning ∧
    ∃ t, step (waiting [.tick]) = .next t := ⟨rfl, rfl, rfl, rfl, by simp, _, rfl⟩

/-- Room for the callback in Running and in Idle, values of both lengths, and no values. -/
theorem witness_StartRunsItsFourSteps :
    (if broadcasting.mode = .running then 0 else broadcasting.listeners.length) ≠ broadcasting.maxListeners ∧
    (if State.reset.mode = .running then 0 else State.reset.listeners.length) ≠ State.reset.maxListeners ∧
    { broadcasting with inputs := [.start (some [1500]) (some ⟨2, .returns⟩)] }.inputs =
      .start (some [1500]) (some ⟨2, .returns⟩) :: [] ∧ (List.replicate 14 (1500 : Int)).length ≤ 14 ∧
    (waiting [.start none none]).inputs = .start none none :: [] ∧ 14 < (List.replicate 15 (1500 : Int)).length := by decide

/-- MAX_LISTENERS = 0 in Running, and a full list in Idle. -/
theorem witness_StartWhenListenFails :
    { broadcasting with maxListeners := 0, inputs := [.start none (some ⟨2, .returns⟩)] }.inputs =
      .start none (some ⟨2, .returns⟩) :: [] ∧
    (if { broadcasting with maxListeners := 0 }.mode = .running then 0
      else { broadcasting with maxListeners := 0 }.listeners.length) = { broadcasting with maxListeners := 0 }.maxListeners ∧
    (if { State.reset with maxListeners := 1, listeners := [⟨1, .returns⟩] }.mode = .running then 0
      else { State.reset with maxListeners := 1, listeners := [⟨1, .returns⟩] }.listeners.length) = 1 := by decide

/-- The open parameter has one of the two values the statement speaks of. -/
theorem witness_startOnListenFail :
    Config.startOnListenFail = .abortBeforeRunning ∨ Config.startOnListenFail = .continueToRunning := by
  cases Config.startOnListenFail <;> simp

theorem witness_TickHandsTheFrameToEveryListener :
    { broadcasting with timer := some ⟨7, some 3⟩, clockMs := 10, inputs := [.tick] }.inputs = .tick :: [] ∧
    broadcasting.mode = .running ∧ 3 + 7 ≤ 10 ∧ (∀ l ∈ broadcasting.listeners, l.behaviour = .returns) ∧
    State.reset.mode = .idle := by decide

/-- A state of the invariant whose last tick was less than the interval ago, and a list whose second listener stops it. -/
theorem witness_TickSpacingAndStops :
    Inv { broadcasting with timer := some ⟨7, some 3⟩, clockMs := 9, inputs := [.tick] } ∧ 9 < 3 + broadcasting.intervalMs ∧
    { broadcasting with listeners := [⟨1, .returns⟩, ⟨2, .neverReturns⟩, ⟨3, .throws⟩] }.listeners =
      [⟨1, .returns⟩] ++ ⟨2, .neverReturns⟩ :: [⟨3, .throws⟩] ∧
    { broadcasting with listeners := [⟨1, .throws⟩] }.listeners = [] ++ ⟨1, .throws⟩ :: [] :=
  ⟨⟨⟨by decide, by decide, by decide, by decide, 14, by decide, by decide⟩,
    ⟨by decide, by decide, by decide, by rintro t ⟨⟩; exact ⟨rfl, by rintro l ⟨⟩; decide⟩⟩⟩, by decide, rfl, rfl⟩

/-- A configuration `construct` takes, at the ends of the 16-bit range, and one it refuses. -/
theorem witness_construct :
    (waiting [.construct ⟨0, 0xFFFF, 0, 5, 10⟩]).inputs = .construct ⟨0, 0xFFFF, 0, 5, 10⟩ :: [] ∧
    ((0 : Int) ≤ 0 ∧ (0 : Int) ≤ 0 ∧ (0 : Int) ≤ 0xFFFF ∧ (0xFFFF : Int) ≤ 0xFFFF) ∧
    ¬ ((0 : Int) ≤ -1 ∧ (-1 : Int) ≤ 0 ∧ (0 : Int) ≤ 1 ∧ (1 : Int) ≤ 0xFFFF) ∧
    (∀ c, Input.stop ≠ .construct c) ∧ ∃ t, step (waiting [.stop]) = .next t :=
  ⟨rfl, by decide, by decide, by simp, _, rfl⟩

/-- A running broadcast that has ticked, with step 4 of a `start` waiting: a state of the invariant, and the step answers. -/
theorem witness_TicksOfOneSessionAreSpaced :
    Inv { broadcasting with timer := some ⟨7, some 3⟩, clockMs := 3, inputs := [.enterRunning, .tick] } ∧
    (∀ values callback, Input.enterRunning ≠ .start values callback) ∧ Input.enterRunning ≠ .stop ∧
    (∀ c, Input.enterRunning ≠ .construct c) ∧
    ∃ t, step { broadcasting with timer := some ⟨7, some 3⟩, clockMs := 3, inputs := [.enterRunning, .tick] } = .next t :=
  ⟨⟨⟨by decide, by decide, by decide, by decide, 14, by decide, by decide⟩,
    ⟨by decide, by decide, by decide, by rintro t ⟨⟩; exact ⟨rfl, by rintro l ⟨⟩; decide⟩⟩⟩,
    by simp, by simp, by simp, _, rfl⟩

/-- The tick at the end of the interval, the boundary of the same statement. -/
theorem witness_TicksOfOneSessionAreSpaced_boundary :
    Inv { broadcasting with timer := some ⟨7, some 3⟩, clockMs := 10, inputs := [.tick] } ∧ 3 + broadcasting.intervalMs ≤ 10 ∧
    (∀ values callback, Input.tick ≠ .start values callback) ∧ Input.tick ≠ .stop ∧ (∀ c, Input.tick ≠ .construct c) ∧
    ∃ t, step { broadcasting with timer := some ⟨7, some 3⟩, clockMs := 10, inputs := [.tick] } = .next t :=
  ⟨⟨⟨by decide, by decide, by decide, by decide, 14, by decide, by decide⟩,
    ⟨by decide, by decide, by decide, by rintro t ⟨⟩; exact ⟨rfl, by rintro l ⟨⟩; decide⟩⟩⟩,
    by decide, by simp, by simp, by simp, _, rfl⟩

theorem witness_EnteringRunningStartsATimerOnlyFromIdle :
    { broadcasting with inputs := [.enterRunning] }.inputs = .enterRunning :: [] ∧ broadcasting.mode = .running ∧
    (waiting [.enterRunning]).inputs = .enterRunning :: [] ∧ (waiting [.enterRunning]).mode = .idle := by decide

/-- Step 4 of `start` given in Running does not free the timer: its last tick stays (R148). -/
theorem test_enterRunning_keeps_the_last_tick :
    step { broadcasting with timer := some ⟨7, some 3⟩, inputs := [.enterRunning] } =
      .next { broadcasting with timer := some ⟨7, some 3⟩ } := rfl

end Sys2Proof.Tests
end

section
/-! Reset (spec/00_scope.md R7, spec/70_reset_and_hazards.md R160 to R163): what a full encode and a reset leave in the block,
the reset and construct steps, and the statements O33 and O47. -/

namespace Sys2Proof.Machine

/-! ### A full encode -/

/-- With limit 14 no channel is left out, so every field is the channel (R105). -/
theorem encodeFrame_full_coherent (s : State) (i : Fin 14) : coherent (encodeFrame 14 s) i := by
  rw [coherent, fieldValue_encodeFrame, if_pos i.isLt, encodeFrame_ch]

/-- With limit 14 the checksum covers all 30 bytes before it (R103, R105). -/
theorem encodeFrame_full_ckValid (s : State) : ckValid (encodeFrame 14 s) := by
  have hsum : frameSum 30 (encodeFrame 14 s).fb = byteSum 14 s.ch :=
    frameSum_encodeFrame s (n := 14) le_rfl le_rfl
  have hle : byteSum 14 s.ch ≤ 0x60 + 510 * 14 := byteSum_le le_rfl s.ch
  rw [ckValid, storedChecksum_encodeFrame, checksum_toNat le_rfl, hsum]
  omega

/-! ### The block after reset (R162) -/

theorem resetBlock_channel (lo hi dflt : Half) (s : State) (i : Fin 14) : (resetBlock lo hi dflt s).ch[i.val] = dflt := by
  simp

theorem resetBlock_header (lo hi dflt : Half) (s : State) :
    (resetBlock lo hi dflt s).fb[0] = 0x20#8 ∧ (resetBlock lo hi dflt s).fb[1] = 0x40#8 :=
  encodeFrame_header 14 _

theorem resetBlock_field (lo hi dflt : Half) (s : State) (i : Fin 14) :
    (resetBlock lo hi dflt s).fb[2 + 2 * i.val] = lowByte dflt ∧
      (resetBlock lo hi dflt s).fb[3 + 2 * i.val] = highByte dflt := by
  rw [resetBlock, encodeFrame_field_low, encodeFrame_field_high, if_pos i.isLt, if_pos i.isLt]
  simp

theorem resetBlock_checksum (lo hi dflt : Half) (s : State) :
    (resetBlock lo hi dflt s).fb[30] = lowByte (checksum 14 (Vector.replicate 14 dflt)) ∧
      (resetBlock lo hi dflt s).fb[31] = highByte (checksum 14 (Vector.replicate 14 dflt)) :=
  encodeFrame_checksum 14 _

theorem resetBlock_coherent (lo hi dflt : Half) (s : State) (i : Fin 14) : coherent (resetBlock lo hi dflt s) i :=
  encodeFrame_full_coherent _ i

theorem resetBlock_ckValid (lo hi dflt : Half) (s : State) : ckValid (resetBlock lo hi dflt s) :=
  encodeFrame_full_ckValid _

/-- The 32 bytes of R27: reset writes every byte of the frame, so the frame before it does not matter. -/
theorem resetBlock_fb_of_default (lo hi : Half) (s : State) : (resetBlock lo hi 1500#16 s).fb = resetFrame := by
  obtain ⟨h0, h1⟩ := resetBlock_header lo hi 1500#16 s
  obtain ⟨h30, h31⟩ := resetBlock_checksum lo hi 1500#16 s
  have hlow : ∀ i : Fin 14, lowByte 1500#16 = resetFrame[2 + 2 * i.val] := by decide
  have hhigh : ∀ i : Fin 14, highByte 1500#16 = resetFrame[3 + 2 * i.val] := by decide
  have hck : checksum 14 (Vector.replicate 14 1500#16) = 0xF351#16 := by decide
  rw [hck] at h30 h31
  exact frame_ext h0 h1 (fun i => (resetBlock_field lo hi _ s i).1.trans (hlow i))
    (fun i => (resetBlock_field lo hi _ s i).2.trans (hhigh i)) h30 h31

/-- What reset writes: the block's own registers, and nothing of the host (R161). -/
theorem resetBlock_eq (lo hi dflt : Half) (s : State) :
    resetBlock lo hi dflt s = { s with
      cfgMin := lo, cfgMax := hi, cfgDefault := dflt
      ch := (resetBlock lo hi dflt s).ch, fb := (resetBlock lo hi dflt s).fb } := rfl

/-! ### The reset step -/

theorem configOk_iff (lo hi dflt : Half) :
    configOk lo hi dflt = true ↔ lo.toNat ≤ dflt.toNat ∧ dflt.toNat ≤ hi.toNat := by
  simp [configOk]

theorem step_reset {s : State} {lo hi dflt : Half} {rest : List Input} (h : s.inputs = .reset lo hi dflt :: rest)
    (hok : configOk lo hi dflt = true) : step s = .next (resetBlock lo hi dflt { s with inputs := rest }) := by
  rw [step_cons h, perform, runReset, if_pos hok]

theorem step_reset_refused {s : State} {lo hi dflt : Half} {rest : List Input} (h : s.inputs = .reset lo hi dflt :: rest)
    (hbad : ¬ configOk lo hi dflt = true) : step s = .refused .illFormedConfiguration := by
  rw [step_cons h, perform, runReset, if_neg hbad]

/-! ### The construct step -/

theorem hostConfigOk_iff (c : HostConfig) :
    hostConfigOk c = true ↔
      0 ≤ c.minValue ∧ c.minValue ≤ c.defaultValue ∧ c.defaultValue ≤ c.maxValue ∧ c.maxValue ≤ 0xFFFF := by
  simp [hostConfigOk]

/-- The host `construct` makes, with the reset it issues next (R141, R142, R163). -/
def constructed (c : HostConfig) (rest : List Input) (s : State) : State :=
  { s with
    mode := .idle, listeners := [], timer := none
    intervalMs := broadcastInterval c.broadcastIntervalMs, maxListeners := c.maxListeners
    inputs := .reset (BitVec.ofInt 16 c.minValue) (BitVec.ofInt 16 c.maxValue) (BitVec.ofInt 16 c.defaultValue) :: rest }

theorem step_construct {s : State} {c : HostConfig} {rest : List Input} (h : s.inputs = .construct c :: rest)
    (hok : hostConfigOk c = true) : step s = .next (constructed c rest s) := by
  rw [step_cons h, perform, construct, if_pos hok, constructed]

theorem step_construct_refused {s : State} {c : HostConfig} {rest : List Input} (h : s.inputs = .construct c :: rest)
    (hbad : ¬ hostConfigOk c = true) : step s = .refused .illFormedConfiguration := by
  rw [step_cons h, perform, construct, if_neg hbad]

/-- An integer that fits a configuration input is the value of its word (R7). -/
theorem ofInt16_toNat {v : Int} (h0 : 0 ≤ v) (h1 : v ≤ 0xFFFF) : ((BitVec.ofInt 16 v).toNat : Int) = v := by
  rw [BitVec.toNat_ofInt]
  omega

/-- The integers of a well-formed host configuration, as words, are a well-formed configuration of the block (R7). -/
theorem configOk_of_hostConfigOk {c : HostConfig} (h : hostConfigOk c = true) :
    configOk (BitVec.ofInt 16 c.minValue) (BitVec.ofInt 16 c.maxValue) (BitVec.ofInt 16 c.defaultValue) = true := by
  obtain ⟨hmin, hlo, hhi, hmax⟩ := (hostConfigOk_iff c).1 h
  have emin := ofInt16_toNat hmin (by omega)
  have emax := ofInt16_toNat (v := c.maxValue) (by omega) hmax
  have edef := ofInt16_toNat (v := c.defaultValue) (by omega) (by omega)
  rw [configOk_iff]
  omega

/-- The two steps of `construct`: the new host, then the reset it issues. -/
theorem run_construct {s : State} {c : HostConfig} {rest : List Input} (h : s.inputs = .construct c :: rest)
    (hok : hostConfigOk c = true) :
    Host.Core.run core 2 s = .next (resetBlock (BitVec.ofInt 16 c.minValue) (BitVec.ofInt 16 c.maxValue)
      (BitVec.ofInt 16 c.defaultValue) { constructed c rest s with inputs := rest }) := by
  have hreset := step_reset (s := constructed c rest s) rfl (configOk_of_hostConfigOk hok)
  rw [run_succ_of_step (step_construct h hok), run_succ_of_step hreset, run_zero]

/-! ### The statements -/

/-- Settles O33: a well-formed configuration takes the reset step, whose full encode fixes every frame byte; any other is
refused. -/
theorem resetProcedure : Obligations.ResetProcedure := by
  intro s lo hi dflt rest h
  refine ⟨fun hok => ?_, fun hbad => step_reset_refused h (mt (configOk_iff lo hi dflt).1 hbad)⟩
  have hstep := step_reset h ((configOk_iff lo hi dflt).2 hok)
  rw [resetBlock_eq] at hstep
  obtain ⟨h0, h1⟩ := resetBlock_header lo hi dflt { s with inputs := rest }
  obtain ⟨h30, h31⟩ := resetBlock_checksum lo hi dflt { s with inputs := rest }
  refine ⟨_, _, hstep, resetBlock_channel lo hi dflt _, h0, h1,
    resetBlock_field lo hi dflt _, h30, h31, resetBlock_coherent lo hi dflt _, resetBlock_ckValid lo hi dflt _, ?_⟩
  rintro rfl
  exact resetBlock_fb_of_default lo hi _

/-- Settles O47: a configuration that fits is reset as the words of its integers; any other is refused. -/
theorem constructResetsTheBlock : Obligations.ConstructResetsTheBlock := by
  intro s c rest h
  refine ⟨fun hok => ?_, fun hbad => step_construct_refused h (mt (hostConfigOk_iff c).1 hbad)⟩
  obtain ⟨hmin, hlo, hhi, hmax⟩ := hok
  exact ⟨_, run_construct h ((hostConfigOk_iff c).2 ⟨hmin, hlo, hhi, hmax⟩), rfl, rfl, rfl, rfl,
    ofInt16_toNat hmin (by omega), ofInt16_toNat (by omega) hmax, ofInt16_toNat (by omega) (by omega),
    resetBlock_channel _ _ _ _, resetBlock_coherent _ _ _ _, resetBlock_ckValid _ _ _ _⟩

end Sys2Proof.Machine
end

section
/-! What one step does to the block registers (spec/10_state.md R20 to R28): the steps that leave all of them, and the registers
each command leaves. -/

namespace Sys2Proof.Machine

/-! ### The steps that leave the block -/

/-- `t` holds the block registers of `s`: the latches, CH and FB (R32). -/
structure SameBlock (s t : State) : Prop where
  cfgMin     : t.cfgMin = s.cfgMin
  cfgMax     : t.cfgMax = s.cfgMax
  cfgDefault : t.cfgDefault = s.cfgDefault
  ch         : t.ch = s.ch
  fb         : t.fb = s.fb

theorem sameBlock_respond (st : Status) (c : BitVec 4) (s : State) : SameBlock s (respond st c s) :=
  ⟨rfl, rfl, rfl, rfl, rfl⟩

theorem sameBlock_stopBroadcast (s : State) : SameBlock s (stopBroadcast s) := by
  constructor <;> simp

theorem sameBlock_addListener (l : Listener) (s : State) : SameBlock s (addListener l s) := by
  constructor <;> simp

theorem sameBlock_enterRunning (s : State) : SameBlock s (enterRunning s) := by
  constructor <;> simp

theorem SameBlock.trans {s t u : State} (h : SameBlock s t) (k : SameBlock t u) : SameBlock s u :=
  ⟨k.cfgMin.trans h.cfgMin, k.cfgMax.trans h.cfgMax, k.cfgDefault.trans h.cfgDefault, k.ch.trans h.ch, k.fb.trans h.fb⟩

theorem SameBlock.fieldValue {s t : State} (h : SameBlock s t) (i : Fin 14) : fieldValue t i = fieldValue s i := by
  simp only [Machine.fieldValue, h.fb]

theorem SameBlock.storedChecksum {s t : State} (h : SameBlock s t) : storedChecksum t = storedChecksum s := by
  simp only [Machine.storedChecksum, h.fb]

/-- What `construct` does when it answers. -/
theorem construct_next {c : HostConfig} {s t : State} (h : construct c s = .next t) :
    hostConfigOk c = true ∧ t = constructed c s.inputs s := by
  unfold construct at h
  split at h
  · cases h; exact ⟨‹_›, rfl⟩
  · cases h

/-- What a reset does when it answers. -/
theorem runReset_next {lo hi dflt : Half} {s t : State} (h : runReset lo hi dflt s = .next t) :
    configOk lo hi dflt = true ∧ t = resetBlock lo hi dflt s := by
  unfold runReset at h
  split at h
  · cases h; exact ⟨‹_›, rfl⟩
  · cases h

/-- What a transaction does when it answers, as every one does: its command's meaning, or nothing to the block. -/
theorem runCommand_next {tr : Transaction} {s t : State} (h : runCommand tr s = .next t) :
    (∃ i, decode tr = .ok i ∧ exec i s = .next t) ∨ t = respond .illegalCommand 0#4 s := by
  unfold runCommand at h
  split at h
  · exact .inl ⟨_, ‹_›, h⟩
  · cases h; exact .inr rfl

theorem sameBlock_start {vs : Option (List Int)} {cb : Option Listener} {s t : State} (h : start vs cb s = .next t) :
    SameBlock s t := by
  obtain ⟨acts, u, hu, rfl⟩ := start_next h
  have hsu : SameBlock s u := by
    obtain rfl | ⟨l, rfl⟩ := hu
    · exact sameBlock_stopBroadcast s
    · exact (sameBlock_stopBroadcast s).trans (sameBlock_addListener l _)
  exact hsu.trans ⟨rfl, rfl, rfl, rfl, rfl⟩

theorem sameBlock_tick {s t : State} (h : tick s = .next t) : SameBlock s t := by
  obtain rfl | ⟨tm, -, -, -, -, rfl⟩ := tick_next h <;> exact ⟨rfl, rfl, rfl, rfl, rfl⟩

/-- Everything one input can do to the block: nothing, a reset, or a command that decodes (R20, R23, R26). -/
theorem perform_block_cases {input : Input} {s t : State} (h : perform input s = .next t) :
    SameBlock s t ∨
    (∃ lo hi dflt, input = .reset lo hi dflt ∧ configOk lo hi dflt = true ∧ t = resetBlock lo hi dflt s) ∨
    (∃ tr i, input = .command tr ∧ decode tr = .ok i ∧ exec i s = .next t) := by
  cases input with
  | command tr =>
    obtain ⟨i, hd, he⟩ | rfl := runCommand_next h
    · exact .inr (.inr ⟨tr, i, rfl, hd, he⟩)
    · exact .inl (sameBlock_respond _ _ s)
  | reset lo hi dflt =>
    obtain ⟨hok, rfl⟩ := runReset_next h
    exact .inr (.inl ⟨lo, hi, dflt, rfl, hok, rfl⟩)
  | read a => cases h; exact .inl ⟨rfl, rfl, rfl, rfl, rfl⟩
  | construct c =>
    obtain ⟨-, rfl⟩ := construct_next h
    exact .inl ⟨rfl, rfl, rfl, rfl, rfl⟩
  | asm line =>
    obtain ⟨ts, -, rfl⟩ := runAsm_next h
    exact .inl ⟨rfl, rfl, rfl, rfl, rfl⟩
  | call c =>
    obtain ⟨acts, -, rfl⟩ := runCall_next h
    exact .inl ⟨rfl, rfl, rfl, rfl, rfl⟩
  | listen l => cases h; exact .inl (sameBlock_addListener l s)
  | start vs cb => exact .inl (sameBlock_start h)
  | enterRunning => cases h; exact .inl (sameBlock_enterRunning s)
  | stop => cases h; exact .inl (sameBlock_stopBroadcast s)
  | tick => exact .inl (sameBlock_tick h)
  | elapse ms => cases h; exact .inl ⟨rfl, rfl, rfl, rfl, rfl⟩

/-- `perform_block_cases` for a step that takes `input`. -/
theorem step_block_cases {s t : State} {input : Input} {rest : List Input} (hi : s.inputs = input :: rest)
    (h : step s = .next t) :
    SameBlock s t ∨
    (∃ lo hi dflt, input = .reset lo hi dflt ∧ configOk lo hi dflt = true ∧
      t = resetBlock lo hi dflt { s with inputs := rest }) ∨
    (∃ tr i, input = .command tr ∧ decode tr = .ok i ∧ exec i { s with inputs := rest } = .next t) := by
  rw [step_cons hi] at h
  have hs : SameBlock s { s with inputs := rest } := ⟨rfl, rfl, rfl, rfl, rfl⟩
  exact (perform_block_cases h).imp_left hs.trans

/-! ### What each command leaves -/

/-- The channels a command may store: CH[0..N−1] or CH[IDX] (R82, R84, R112, R114). -/
def storesChannel : Instr → Nat → Prop
  | .setall n _, k | .update n _, k => k < n.toNat
  | .setone idx _, k | .updch idx _, k => k = idx.toNat
  | .encode _, _ => False

/-- The frame bytes a command may write: header, checksum and the fields below its limit, or the whole frame (R104, R114). -/
def writesFrameByte : Instr → Nat → Prop
  | .encode n, k | .update n _, k => k < 2 + 2 * n.toNat ∨ k = 30 ∨ k = 31
  | .updch _ _, _ => True
  | .setall _ _, _ | .setone _ _, _ => False

/-- The commands that encode field i: ENCODE and UPDATE with a limit above i, and UPDCH (R104, R114). -/
def encodesField (c : Instr) (i : Fin 14) : Prop :=
  (∃ n, c = .encode n ∧ i.val < n.toNat) ∨ (∃ n d, c = .update n d ∧ i.val < n.toNat) ∨ (∃ idx d, c = .updch idx d)

theorem storeChannel_ch_other (raw : Int) (s : State) {i k : Fin 14} (h : k ≠ i) :
    (storeChannel i raw s).ch[k.val] = s.ch[k.val] := by
  rw [storeChannel_ch, Vector.getElem_set_ne _ _ (fun e => h (Fin.ext e.symm))]

theorem storeChannels_ch_other (n : Nat) (data : DataWords) (s : State) {k : Fin 14} (h : ¬ k.val < n) :
    (storeChannels n data s).ch[k.val] = s.ch[k.val] := by
  rw [storeChannels_ch, storeAll_get, if_neg h]

/-- An encode leaves the fields at and above its limit, byte by byte (R104). -/
theorem encodeFrame_fb_other (limit : Nat) (s : State) {k : Nat} (hk : k < 32)
    (h : ¬ (k < 2 + 2 * limit ∨ k = 30 ∨ k = 31)) : (encodeFrame limit s).fb[k] = s.fb[k] := by
  have hfields : ∀ i ∈ channelsBelow limit, k ≠ 2 + 2 * i.val ∧ k ≠ 3 + 2 * i.val := by
    intro i hi
    rw [mem_channelsBelow] at hi
    omega
  rw [encodeFrame_fb, writeChecksum_get, if_neg (by omega), if_neg (by omega), writeFields,
    foldl_writeField_other _ _ _ _ _ hfields, writeHeader_get, if_neg (by omega), if_neg (by omega)]

/-- Everything a command that answers can leave behind: the state with a response alone, or after its stores and its encode
(R82, R84, R107, R112, R114, R131). -/
theorem exec_next {c : Instr} {s t : State} (h : exec c s = .next t) :
    (∃ st, t = respond st 0#4 s) ∨
    (∃ n data, c = .setall n data ∧ n.toNat ≤ 14 ∧ t = respond .ok n (storeChannels n.toNat data s)) ∨
    (∃ idx data k, c = .setone idx data ∧ channelIndex idx = some k ∧
      t = respond .ok 0#4 (storeChannel k (sext32 data[0]) s)) ∨
    (∃ limit, c = .encode limit ∧ limit.toNat ≤ 14 ∧ t = respond .ok 0#4 (encodeFrame limit.toNat s)) ∨
    (∃ n data, c = .update n data ∧ n.toNat ≤ 14 ∧
      t = respond .ok n (encodeFrame n.toNat (storeChannels n.toNat data s))) ∨
    (∃ idx data k, c = .updch idx data ∧ channelIndex idx = some k ∧
      t = respond .ok 0#4 (encodeFrame 14 (storeChannel k (sext32 data[0]) s))) := by
  have answers {u : State} (e : exec c s = .next u) : t = u := Host.Outcome.next.inj (h.symm.trans e)
  obtain ⟨-, e⟩ | ⟨-, -, -, -, e⟩ | ⟨n, d, hc, hn, e⟩ | ⟨idx, d, k, hc, hk, e⟩ | ⟨n, hc, hn, e⟩ | ⟨n, d, hc, hn, e⟩ |
    ⟨idx, d, k, hc, hk, e⟩ := exec_cases c s
  · exact .inl ⟨_, answers e⟩
  · exact .inl ⟨_, answers e⟩
  · exact .inr (.inl ⟨n, d, hc, hn, answers e⟩)
  · exact .inr (.inr (.inl ⟨idx, d, k, hc, hk, answers e⟩))
  · exact .inr (.inr (.inr (.inl ⟨n, hc, hn, answers e⟩)))
  · exact .inr (.inr (.inr (.inr (.inl ⟨n, d, hc, hn, answers e⟩))))
  · exact .inr (.inr (.inr (.inr (.inr ⟨idx, d, k, hc, hk, answers e⟩))))

/-- No command writes a latch (R20). -/
theorem exec_latches {c : Instr} {s t : State} (h : exec c s = .next t) :
    t.cfgMin = s.cfgMin ∧ t.cfgMax = s.cfgMax ∧ t.cfgDefault = s.cfgDefault := by
  obtain ⟨_, rfl⟩ | ⟨_, _, -, -, rfl⟩ | ⟨_, _, _, -, -, rfl⟩ | ⟨_, -, -, rfl⟩ | ⟨_, _, -, -, rfl⟩ | ⟨_, _, _, -, -, rfl⟩ :=
    exec_next h <;> exact ⟨rfl, rfl, rfl⟩

/-- A command leaves every channel it does not store (R23). -/
theorem exec_ch_other {c : Instr} {s t : State} (h : exec c s = .next t) {k : Fin 14} (hk : ¬ storesChannel c k.val) :
    t.ch[k.val] = s.ch[k.val] := by
  have hindex {idx : BitVec 8} {j : Fin 14} (hj : channelIndex idx = some j) (hk : k.val ≠ idx.toNat) : k ≠ j := by
    rintro rfl
    exact hk ((channelIndex_eq_some_iff idx k).1 hj).symm
  obtain ⟨_, rfl⟩ | ⟨n, d, rfl, -, rfl⟩ | ⟨idx, d, j, rfl, hj, rfl⟩ | ⟨n, rfl, -, rfl⟩ | ⟨n, d, rfl, -, rfl⟩ |
    ⟨idx, d, j, rfl, hj, rfl⟩ := exec_next h
  · rfl
  · exact storeChannels_ch_other _ _ s hk
  · exact storeChannel_ch_other _ s (hindex hj hk)
  · rfl
  · rw [respond_ch, encodeFrame_ch]
    exact storeChannels_ch_other _ _ s hk
  · rw [respond_ch, encodeFrame_ch]
    exact storeChannel_ch_other _ s (hindex hj hk)

/-- A command leaves every frame byte it does not write (R26, R28). -/
theorem exec_fb_other {c : Instr} {s t : State} (h : exec c s = .next t) {k : Nat} (hk : k < 32)
    (hw : ¬ writesFrameByte c k) : t.fb[k] = s.fb[k] := by
  obtain ⟨_, rfl⟩ | ⟨n, d, rfl, -, rfl⟩ | ⟨idx, d, j, rfl, -, rfl⟩ | ⟨n, rfl, -, rfl⟩ | ⟨n, d, rfl, -, rfl⟩ |
    ⟨idx, d, j, rfl, -, rfl⟩ := exec_next h
  · rfl
  · rfl
  · rfl
  · exact encodeFrame_fb_other _ s hk hw
  · exact encodeFrame_fb_other _ (storeChannels n.toNat d s) hk hw
  · exact absurd trivial hw

@[simp] theorem fieldValue_respond (st : Status) (c : BitVec 4) (s : State) (i : Fin 14) :
    fieldValue (respond st c s) i = fieldValue s i := rfl

/-- A field is the channel after an encode that covers it, and what it was after any other (R28, R104). -/
theorem fieldValue_encodeFrame_cases (limit : Nat) (s : State) (i : Fin 14) :
    fieldValue (encodeFrame limit s) i = fieldValue s i ∨
      (fieldValue (encodeFrame limit s) i = (encodeFrame limit s).ch[i.val] ∧ i.val < limit) := by
  rw [fieldValue_encodeFrame]
  split
  · exact .inr ⟨rfl, ‹_›⟩
  · exact .inl rfl

/-- A command leaves a field of the frame or makes it the channel, and only if it encodes it (R28). -/
theorem exec_field {c : Instr} {s t : State} (h : exec c s = .next t) (i : Fin 14) :
    fieldValue t i = fieldValue s i ∨ (fieldValue t i = t.ch[i.val] ∧ encodesField c i) := by
  obtain ⟨_, rfl⟩ | ⟨n, d, rfl, -, rfl⟩ | ⟨idx, d, j, rfl, -, rfl⟩ | ⟨n, rfl, -, rfl⟩ | ⟨n, d, rfl, -, rfl⟩ |
    ⟨idx, d, j, rfl, -, rfl⟩ := exec_next h
  · exact .inl rfl
  · exact .inl rfl
  · exact .inl rfl
  · exact (fieldValue_encodeFrame_cases n.toNat s i).imp_right (.imp_right fun hi => .inl ⟨n, rfl, hi⟩)
  · exact (fieldValue_encodeFrame_cases n.toNat (storeChannels n.toNat d s) i).imp_right
      (.imp_right fun hi => .inr (.inl ⟨n, d, rfl, hi⟩))
  · rw [fieldValue_respond, respond_ch]
    exact .inr ⟨encodeFrame_full_coherent _ i, .inr (.inr ⟨idx, d, rfl⟩)⟩

/-! ### The read port -/

/-- A read shows no more than the frame byte or the channel its address names (R44). -/
theorem readPort_congr {s t : State} {a : ReadAddr} (hfb : ∀ h : a.toNat < 32, t.fb[a.toNat] = s.fb[a.toNat])
    (hch : ∀ k : Fin 14, a.toNat = 0x20 + 2 * k.val ∨ a.toNat = 0x21 + 2 * k.val → t.ch[k.val] = s.ch[k.val]) :
    readPort t a = readPort s a := by
  unfold readPort
  split
  · exact hfb _
  · split
    · have hk := hch ⟨(a.toNat - 0x20) / 2, by omega⟩ (by dsimp only; omega)
      simp only [hk]
    · rfl

/-- A command leaves every address that names neither a frame byte it writes nor a channel it stores (R47). -/
theorem readPort_exec_other {c : Instr} {s t : State} {a : ReadAddr} (h : exec c s = .next t)
    (hfb : a.toNat < 32 → ¬ writesFrameByte c a.toNat)
    (hch : ∀ k, a.toNat = 0x20 + 2 * k ∨ a.toNat = 0x21 + 2 * k → ¬ storesChannel c k) :
    readPort t a = readPort s a :=
  readPort_congr (fun ha => exec_fb_other h ha (hfb ha)) (fun k hk => exec_ch_other h (hch k.val hk))

/-! ### The statements -/

/-- Settles O18: each address outside a command's bytes names no register the command writes. -/
theorem readPortFrameOfCommands : Obligations.ReadPortFrameOfCommands := by
  intro s t a
  refine ⟨fun n d h ha => ?_, fun idx d h ha => ?_, fun n h ha => ?_, fun n d h hf ha => ?_, fun idx d h hf ha => ?_⟩
  · exact readPort_exec_other h (fun _ => id) fun k hk => by simp only [storesChannel]; omega
  · exact readPort_exec_other h (fun _ => id) fun k hk => by simp only [storesChannel]; omega
  · exact readPort_exec_other h (fun _ => ha) fun k hk => id
  · exact readPort_exec_other h (fun _ => hf) fun k hk => by simp only [storesChannel]; omega
  · exact readPort_exec_other h (fun hlt => by omega) fun k hk => by simp only [storesChannel]; omega

/-- Settles O26: only a reset and the commands that encode field i move it, to the channel of the state they leave. -/
theorem fieldsFollowOnlyEncodes : Obligations.FieldsFollowOnlyEncodes := by
  intro s t input rest i hin h
  obtain hsame | ⟨lo, hi, dflt, rfl, -, rfl⟩ | ⟨tr, c, rfl, hd, he⟩ := step_block_cases hin h
  · exact .inl (hsame.fieldValue i)
  · exact .inr ⟨resetBlock_coherent lo hi dflt _ i, .inl ⟨lo, hi, dflt, rfl⟩⟩
  · refine (exec_field he i).imp_right (.imp_right fun henc => .inr ?_)
    obtain ⟨n, rfl, hn⟩ | ⟨n, d, rfl, hn⟩ | ⟨idx, d, rfl⟩ := henc
    · exact .inl ⟨tr, n, rfl, hd, hn⟩
    · exact .inr (.inl ⟨tr, n, d, rfl, hd, hn⟩)
    · exact .inr (.inr ⟨tr, idx, d, rfl, hd⟩)

/-- Settles O27: reset loads the latches, a command and every other input leave them, and `readPort` does not name them. -/
theorem onlyResetWritesTheLatches : Obligations.OnlyResetWritesTheLatches := by
  refine ⟨fun s lo hi dflt rest h hok => ⟨_, step_reset h hok, rfl, rfl, rfl⟩, ?_, fun _ _ _ _ _ => rfl⟩
  intro s t input rest hin hreset h
  obtain hsame | ⟨lo, hi, dflt, rfl, -, -⟩ | ⟨tr, c, -, -, he⟩ := step_block_cases hin h
  · exact ⟨hsame.cfgMin, hsame.cfgMax, hsame.cfgDefault⟩
  · exact absurd rfl (hreset lo hi dflt)
  · exact exec_latches (s := { s with inputs := rest }) he

/-- Settles O28: ENCODE is the one command that stores no channel. -/
theorem onlyStoringCommandsWriteChannels : Obligations.OnlyStoringCommandsWriteChannels := by
  intro s t input rest hin h hne
  obtain hsame | ⟨lo, hi, dflt, rfl, -, -⟩ | ⟨tr, c, rfl, hd, he⟩ := step_block_cases hin h
  · exact absurd hsame.ch hne
  · exact .inl ⟨lo, hi, dflt, rfl⟩
  · refine .inr ⟨tr, rfl, ?_⟩
    cases c with
    | setall n d => exact .inl ⟨n, d, hd⟩
    | setone idx d => exact .inr (.inl ⟨idx, d, hd⟩)
    | encode n => exact absurd (Vector.ext fun k hk => exec_ch_other (k := ⟨k, hk⟩) he id) hne
    | update n d => exact .inr (.inr (.inl ⟨n, d, hd⟩))
    | updch idx d => exact .inr (.inr (.inr ⟨idx, d, hd⟩))

/-- Settles O29: SETALL and SETONE are the two commands that write no frame byte. -/
theorem onlyEncodingCommandsWriteTheFrame : Obligations.OnlyEncodingCommandsWriteTheFrame := by
  intro s t input rest hin h hne
  obtain hsame | ⟨lo, hi, dflt, rfl, -, -⟩ | ⟨tr, c, rfl, hd, he⟩ := step_block_cases hin h
  · exact absurd hsame.fb hne
  · exact .inl ⟨lo, hi, dflt, rfl⟩
  · refine .inr ⟨tr, rfl, ?_⟩
    cases c with
    | setall n d => exact absurd (Vector.ext fun k hk => exec_fb_other he hk id) hne
    | setone idx d => exact absurd (Vector.ext fun k hk => exec_fb_other he hk id) hne
    | encode n => exact .inl ⟨n, hd⟩
    | update n d => exact .inr (.inl ⟨n, d, hd⟩)
    | updch idx d => exact .inr (.inr ⟨idx, d, hd⟩)

end Sys2Proof.Machine
end

section
/-! The invariant (spec/10_state.md R24, spec/41_frame_encoder.md R106, spec/60_exceptions.md R141 and R142): reset establishes
it, every step keeps it, so it holds of every reachable state. -/

namespace Sys2Proof.Machine

/-! ### The block -/

theorem BlockInv.of_sameBlock {s t : State} (h : BlockInv s) (k : SameBlock s t) : BlockInv t where
  latches := by rw [k.cfgMin, k.cfgMax, k.cfgDefault]; exact h.latches
  channels i := by simpa only [inRange, k.cfgMin, k.cfgMax, k.ch] using h.channels i
  header := by simpa only [k.fb] using h.header
  fields i := by simpa only [inRange, k.cfgMin, k.cfgMax, k.fieldValue] using h.fields i
  checksum := by simpa only [k.storedChecksum, k.fb] using h.checksum

/-- Stores that keep the channels in range keep the invariant: nothing else of it looks at CH. -/
theorem BlockInv.with_channels {s : State} (h : BlockInv s) {ch : Channels} (hch : ∀ i : Fin 14, inRange s ch[i.val]) :
    BlockInv { s with ch := ch } :=
  ⟨h.latches, hch, h.header, h.fields, h.checksum⟩

theorem BlockInv.clamp_inRange {s : State} (h : BlockInv s) (raw : Int) : inRange s (clamp s.cfgMin s.cfgMax raw) := by
  obtain ⟨hlo, hhi⟩ := (configOk_iff _ _ _).1 h.latches
  exact Machine.clamp_inRange (hlo.trans hhi) raw

theorem BlockInv.storeChannel {s : State} (h : BlockInv s) (k : Fin 14) (raw : Int) : BlockInv (storeChannel k raw s) := by
  refine h.with_channels fun i => ?_
  rw [Vector.getElem_set]
  split
  · exact h.clamp_inRange raw
  · exact h.channels i

theorem BlockInv.storeChannels {s : State} (h : BlockInv s) (n : Nat) (data : DataWords) :
    BlockInv (storeChannels n data s) := by
  refine h.with_channels fun i => ?_
  rw [storeAll_get]
  split
  · exact h.clamp_inRange _
  · exact h.channels i

/-- An encode of channels in range makes header, covered fields and checksum good; only the fields it leaves had to be in range
before (R104, R106). -/
theorem blockInv_encodeFrame {limit : Nat} (hl : limit ≤ 14) {s : State}
    (hcfg : configOk s.cfgMin s.cfgMax s.cfgDefault = true) (hch : ∀ i : Fin 14, inRange s s.ch[i.val])
    (hf : ∀ i : Fin 14, limit ≤ i.val → inRange s (fieldValue s i)) : BlockInv (encodeFrame limit s) where
  latches := hcfg
  channels := hch
  header := encodeFrame_header limit s
  fields i := by
    rw [fieldValue_encodeFrame]
    split
    · exact hch i
    · exact hf i (by omega)
  checksum := ⟨limit, hl, by rw [storedChecksum_encodeFrame, checksum_toNat hl, frameSum_encodeFrame s le_rfl hl]⟩

theorem BlockInv.encodeFrame {s : State} (h : BlockInv s) {limit : Nat} (hl : limit ≤ 14) : BlockInv (encodeFrame limit s) :=
  blockInv_encodeFrame hl h.latches h.channels fun i _ => h.fields i

/-- A reset establishes the block's invariant from any state: its encode leaves no field (R162). -/
theorem blockInv_resetBlock {lo hi dflt : Half} (hok : configOk lo hi dflt = true) (s : State) :
    BlockInv (resetBlock lo hi dflt s) := by
  refine blockInv_encodeFrame le_rfl hok (fun i => ?_) fun i hi => absurd i.isLt (by omega)
  simpa [inRange] using (configOk_iff lo hi dflt).1 hok

theorem BlockInv.exec {c : Instr} {s t : State} (h : BlockInv s) (he : exec c s = .next t) : BlockInv t := by
  have answered {st : Status} {k : BitVec 4} {u : State} (hu : BlockInv u) : BlockInv (respond st k u) :=
    hu.of_sameBlock (sameBlock_respond st k u)
  obtain ⟨_, rfl⟩ | ⟨n, d, -, -, rfl⟩ | ⟨idx, d, j, -, -, rfl⟩ | ⟨n, -, hn, rfl⟩ | ⟨n, d, -, hn, rfl⟩ |
    ⟨idx, d, j, -, -, rfl⟩ := exec_next he
  · exact answered h
  · exact answered (h.storeChannels n.toNat d)
  · exact answered (h.storeChannel j _)
  · exact answered (h.encodeFrame hn)
  · exact answered ((h.storeChannels n.toNat d).encodeFrame hn)
  · exact answered ((h.storeChannel j _).encodeFrame le_rfl)

theorem BlockInv.perform {input : Input} {s t : State} (h : BlockInv s) (hp : perform input s = .next t) : BlockInv t := by
  obtain hsame | ⟨lo, hi, dflt, -, hok, rfl⟩ | ⟨tr, c, -, -, he⟩ := perform_block_cases hp
  · exact h.of_sameBlock hsame
  · exact blockInv_resetBlock hok s
  · exact h.exec he

/-! ### The host agent -/

/-- `t` holds the host agent's state of `s`: everything R141, R142 and R148 name. -/
structure SameHost (s t : State) : Prop where
  mode         : t.mode = s.mode
  listeners    : t.listeners = s.listeners
  timer        : t.timer = s.timer
  intervalMs   : t.intervalMs = s.intervalMs
  maxListeners : t.maxListeners = s.maxListeners
  clockMs      : t.clockMs = s.clockMs

theorem HostInv.of_sameHost {s t : State} (h : HostInv s) (k : SameHost s t) : HostInv t where
  listeners := by rw [k.listeners, k.maxListeners]; exact h.listeners
  timer := by rw [k.mode, k.timer]; exact h.timer
  interval := by rw [k.intervalMs]; exact h.interval
  period := by rw [k.timer, k.intervalMs, k.clockMs]; exact h.period

/-- No command touches the host agent (R140). -/
theorem sameHost_exec {c : Instr} {s t : State} (h : exec c s = .next t) : SameHost s t := by
  obtain ⟨_, rfl⟩ | ⟨_, _, -, -, rfl⟩ | ⟨_, _, _, -, -, rfl⟩ | ⟨_, -, -, rfl⟩ | ⟨_, _, -, -, rfl⟩ | ⟨_, _, _, -, -, rfl⟩ :=
    exec_next h <;> exact ⟨rfl, rfl, rfl, rfl, rfl, rfl⟩

theorem HostInv.stopBroadcast {s : State} (h : HostInv s) : HostInv (stopBroadcast s) := by
  unfold Machine.stopBroadcast
  split
  · exact h
  · exact ⟨Nat.zero_le _, by simp, h.interval, by simp⟩

/-- A `listen` that is heard had room, so the list still fits (R142, R143). -/
theorem HostInv.addListener {s : State} (h : HostInv s) (l : Listener) : HostInv (addListener l s) := by
  unfold Machine.addListener
  split
  · exact h.of_sameHost ⟨rfl, rfl, rfl, rfl, rfl, rfl⟩
  · rename_i hroom
    have hle := h.listeners
    refine ⟨?_, h.timer, h.interval, h.period⟩
    simp only [listenersFull, decide_eq_true_eq] at hroom
    simp only [List.length_append, List.length_singleton]
    omega

theorem HostInv.enterRunning {s : State} (h : HostInv s) : HostInv (enterRunning s) := by
  cases hm : s.mode with
  | running => rwa [enterRunning_of_running hm]
  | idle =>
    rw [enterRunning_of_idle hm]
    refine ⟨h.listeners, by simp, h.interval, ?_⟩
    rintro t ⟨⟩
    exact ⟨rfl, nofun⟩

theorem HostInv.elapse {s : State} (h : HostInv s) (ms : Nat) : HostInv (elapse ms s) := by
  refine ⟨h.listeners, h.timer, h.interval, fun tm htm => ?_⟩
  obtain ⟨hperiod, hlast⟩ := h.period tm htm
  exact ⟨hperiod, fun last e => (hlast last e).trans (Nat.le_add_right _ _)⟩

theorem HostInv.start {vs : Option (List Int)} {cb : Option Listener} {s t : State} (h : HostInv s)
    (hs : start vs cb s = .next t) : HostInv t := by
  obtain ⟨acts, u, hu, rfl⟩ := start_next hs
  have hinv : HostInv u := by
    obtain rfl | ⟨l, rfl⟩ := hu
    · exact h.stopBroadcast
    · exact h.stopBroadcast.addListener l
  exact hinv.of_sameHost ⟨rfl, rfl, rfl, rfl, rfl, rfl⟩

/-- A tick that fires moves the timer's last tick to now, and keeps its period (R148). -/
theorem HostInv.tick {s t : State} (h : HostInv s) (ht : tick s = .next t) : HostInv t := by
  obtain rfl | ⟨tm, hm, htm, -, -, rfl⟩ := tick_next ht
  · exact h
  · refine ⟨h.listeners, by simp [hm], h.interval, ?_⟩
    rintro t ⟨⟩
    refine ⟨(h.period tm htm).1, ?_⟩
    rintro last ⟨⟩
    exact le_rfl

/-- A new host starts in Idle, with the floor of 7 on its interval (R141, R142). -/
theorem hostInv_constructed (c : HostConfig) (rest : List Input) (s : State) : HostInv (constructed c rest s) := by
  refine ⟨Nat.zero_le _, by simp [constructed], ?_, nofun⟩
  simp only [constructed, broadcastInterval, Config.intervalFloorMs]
  omega

theorem HostInv.perform {input : Input} {s t : State} (h : HostInv s) (hp : perform input s = .next t) : HostInv t := by
  cases input with
  | command tr =>
    obtain ⟨c, -, he⟩ | rfl := runCommand_next hp
    · exact h.of_sameHost (sameHost_exec he)
    · exact h.of_sameHost ⟨rfl, rfl, rfl, rfl, rfl, rfl⟩
  | read a => cases hp; exact h.of_sameHost ⟨rfl, rfl, rfl, rfl, rfl, rfl⟩
  | reset lo hi dflt =>
    obtain ⟨-, rfl⟩ := runReset_next hp
    exact h.of_sameHost ⟨rfl, rfl, rfl, rfl, rfl, rfl⟩
  | construct c =>
    obtain ⟨-, rfl⟩ := construct_next hp
    exact hostInv_constructed c _ s
  | asm line =>
    obtain ⟨ts, -, rfl⟩ := runAsm_next hp
    exact h.of_sameHost ⟨rfl, rfl, rfl, rfl, rfl, rfl⟩
  | call c =>
    obtain ⟨acts, -, rfl⟩ := runCall_next hp
    exact h.of_sameHost ⟨rfl, rfl, rfl, rfl, rfl, rfl⟩
  | listen l => cases hp; exact h.addListener l
  | start vs cb => exact h.start hp
  | enterRunning => cases hp; exact h.enterRunning
  | stop => cases hp; exact h.stopBroadcast
  | tick => exact h.tick hp
  | elapse ms => cases hp; exact h.elapse ms

/-! ### Steps and runs -/

/-- The invariant looks at no waiting input. -/
theorem Inv.with_inputs {s : State} (h : Inv s) (inputs : List Input) : Inv { s with inputs := inputs } :=
  ⟨h.block.of_sameBlock ⟨rfl, rfl, rfl, rfl, rfl⟩, h.host.of_sameHost ⟨rfl, rfl, rfl, rfl, rfl, rfl⟩⟩

theorem Inv.step {s t : State} (h : Inv s) (hs : step s = .next t) : Inv t := by
  cases hi : s.inputs with
  | nil =>
    rw [step_nil hi] at hs
    cases hs
    exact h
  | cons input rest =>
    rw [step_cons hi] at hs
    have h' := h.with_inputs rest
    exact ⟨h'.block.perform hs, h'.host.perform hs⟩

theorem Inv.run {n : Nat} {s t : State} (h : Inv s) (hr : Host.Core.run core n s = .next t) : Inv t := by
  induction n generalizing s with
  | zero =>
    rw [run_zero] at hr
    cases hr
    exact h
  | succ n ih =>
    rw [run_succ] at hr
    split at hr
    · exact ih (h.step ‹_›) hr
    · cases hr
    · cases hr

/-- A reset with the default configuration leaves the block registers of `State.reset` (logs 1 and 7) and everything else as it
was (log 9). -/
theorem resetBlock_default (s : State) :
    resetBlock 1000#16 2000#16 1500#16 s =
      { s with cfgMin := State.reset.cfgMin, cfgMax := State.reset.cfgMax, cfgDefault := State.reset.cfgDefault
               ch := State.reset.ch, fb := State.reset.fb } := by
  rw [resetBlock_eq, resetBlock_fb_of_default]
  rfl

theorem inv_reset : Inv State.reset where
  block := by
    have h := blockInv_resetBlock (lo := 1000#16) (hi := 2000#16) (dflt := 1500#16) (by decide) State.reset
    rwa [resetBlock_default] at h
  host := ⟨Nat.zero_le _, by decide, le_rfl, nofun⟩

/-! ### The statements -/

/-- Settles O30: the block's half by the three things an input can do to the block, the host's half input by input. -/
theorem everyStepKeepsTheInvariant : Obligations.EveryStepKeepsTheInvariant :=
  fun _ _ => Inv.step

/-- Settles O31: the block of `State.reset` is the one a reset with its configuration leaves. -/
theorem resetStateMeetsTheInvariant : Obligations.ResetStateMeetsTheInvariant :=
  inv_reset

/-- Settles O32: every reachable state meets the invariant, whose channels are in range. -/
theorem reachableChannelsStayInRange : Obligations.ReachableChannelsStayInRange :=
  fun actions _ _ h => ((inv_reset.with_inputs actions).run h).block.channels

/-- Settles O34: the reset step, with `resetBlock_default`. -/
theorem resetGivesTheResetBlock : Obligations.ResetGivesTheResetBlock := by
  intro s h
  rw [step_reset h (by decide), resetBlock_default]

end Sys2Proof.Machine
end

section
/-! No output is read back (spec/10_state.md R31): giving out more before a step and taking the step commute. -/

namespace Sys2Proof.Machine

/-- `s` after a past in which `before` was given out first. -/
def withEarlierOutputs (before : List Output) (s : State) : State := { s with outputs := before ++ s.outputs }

/-- Apply `f` to the next state; a stop stays as it is. -/
def mapNext (f : State → State) : Host.Outcome State Fault Refusal → Host.Outcome State Fault Refusal
  | .next s => .next (f s)
  | .fault r => .fault r
  | .refused r => .refused r

@[simp] theorem mapNext_next (f : State → State) (s : State) : mapNext f (.next s) = .next (f s) := rfl
@[simp] theorem mapNext_fault (f : State → State) (r : Fault) : mapNext f (.fault r) = .fault r := rfl
@[simp] theorem mapNext_refused (f : State → State) (r : Refusal) : mapNext f (.refused r) = .refused r := rfl

section
variable (before : List Output) (s : State)

/-! ### The shared operations -/

@[simp] theorem emit_withEarlierOutputs (o : Output) :
    emit o (withEarlierOutputs before s) = withEarlierOutputs before (emit o s) := by
  simp [emit, withEarlierOutputs]

@[simp] theorem respond_withEarlierOutputs (st : Status) (c : BitVec 4) :
    respond st c (withEarlierOutputs before s) = withEarlierOutputs before (respond st c s) :=
  emit_withEarlierOutputs before s _

@[simp] theorem storeChannel_withEarlierOutputs (k : Fin 14) (raw : Int) :
    storeChannel k raw (withEarlierOutputs before s) = withEarlierOutputs before (storeChannel k raw s) := rfl

@[simp] theorem storeChannels_withEarlierOutputs (n : Nat) (data : DataWords) :
    storeChannels n data (withEarlierOutputs before s) = withEarlierOutputs before (storeChannels n data s) := rfl

@[simp] theorem encodeFrame_withEarlierOutputs (limit : Nat) :
    encodeFrame limit (withEarlierOutputs before s) = withEarlierOutputs before (encodeFrame limit s) := rfl

@[simp] theorem readPort_withEarlierOutputs (a : ReadAddr) : readPort (withEarlierOutputs before s) a = readPort s a := rfl

/-! ### The block's inputs -/

theorem exec_withEarlierOutputs (c : Instr) :
    exec c (withEarlierOutputs before s) = mapNext (withEarlierOutputs before) (exec c s) := by
  cases c with
  | setall n d => simp only [exec, execSetall]; split <;> simp
  | setone idx d => simp only [exec, execSetone]; split <;> simp
  | encode n => simp only [exec, execEncode]; split <;> simp
  | update n d => simp only [exec, execUpdate]; split <;> simp
  | updch idx d => simp only [exec, execUpdch]; split <;> simp

theorem runCommand_withEarlierOutputs (tr : Transaction) :
    runCommand tr (withEarlierOutputs before s) = mapNext (withEarlierOutputs before) (runCommand tr s) := by
  unfold runCommand
  split
  · exact exec_withEarlierOutputs before s _
  · simp

theorem runReset_withEarlierOutputs (lo hi dflt : Half) :
    runReset lo hi dflt (withEarlierOutputs before s) = mapNext (withEarlierOutputs before) (runReset lo hi dflt s) := by
  unfold runReset
  split <;> rfl

/-! ### The host agent's inputs -/

@[simp] theorem stopBroadcast_withEarlierOutputs :
    stopBroadcast (withEarlierOutputs before s) = withEarlierOutputs before (stopBroadcast s) := by
  cases h : s.mode <;> simp [stopBroadcast, withEarlierOutputs, h]

@[simp] theorem listenersFull_withEarlierOutputs : listenersFull (withEarlierOutputs before s) = listenersFull s := rfl

@[simp] theorem addListener_withEarlierOutputs (l : Listener) :
    addListener l (withEarlierOutputs before s) = withEarlierOutputs before (addListener l s) := by
  simp only [addListener, listenersFull_withEarlierOutputs, emit_withEarlierOutputs]
  split <;> rfl

@[simp] theorem enterRunning_withEarlierOutputs :
    enterRunning (withEarlierOutputs before s) = withEarlierOutputs before (enterRunning s) := by
  cases h : s.mode <;> simp [enterRunning, withEarlierOutputs, h]

@[simp] theorem startStoring_withEarlierOutputs (vs : Option (List Int)) :
    startStoring vs (withEarlierOutputs before s) = mapNext (withEarlierOutputs before) (startStoring vs s) := by
  unfold startStoring
  split
  · rfl
  · split <;> rfl

theorem start_withEarlierOutputs (vs : Option (List Int)) (cb : Option Listener) :
    start vs cb (withEarlierOutputs before s) = mapNext (withEarlierOutputs before) (start vs cb s) := by
  unfold start
  split
  · simp
  · simp only [stopBroadcast_withEarlierOutputs, listenersFull_withEarlierOutputs, addListener_withEarlierOutputs,
      startStoring_withEarlierOutputs]
    split
    · split <;> rfl
    · rfl

theorem construct_withEarlierOutputs (c : HostConfig) :
    construct c (withEarlierOutputs before s) = mapNext (withEarlierOutputs before) (construct c s) := by
  unfold construct
  split <;> rfl

theorem runAsm_withEarlierOutputs (line : Asm) :
    runAsm line (withEarlierOutputs before s) = mapNext (withEarlierOutputs before) (runAsm line s) := by
  unfold runAsm
  split <;> rfl

theorem runCall_withEarlierOutputs (c : HostCall) :
    runCall c (withEarlierOutputs before s) = mapNext (withEarlierOutputs before) (runCall c s) := by
  unfold runCall
  split <;> rfl

/-- Listeners are given the frame, which no output enters, and their own behaviour decides where the run stops. -/
theorem deliver_withEarlierOutputs (ls : List Listener) :
    deliver ls (withEarlierOutputs before s) = mapNext (withEarlierOutputs before) (deliver ls s) := by
  induction ls generalizing s with
  | nil => rfl
  | cons l ls ih =>
    have hframe : frameSnapshot (withEarlierOutputs before s) = frameSnapshot s := rfl
    simp only [deliver, hframe, emit_withEarlierOutputs]
    split
    · exact ih _
    · rfl
    · rfl

theorem tick_withEarlierOutputs :
    tick (withEarlierOutputs before s) = mapNext (withEarlierOutputs before) (tick s) := by
  have hmode : (withEarlierOutputs before s).mode = s.mode := rfl
  have htimer : (withEarlierOutputs before s).timer = s.timer := rfl
  have hclock : (withEarlierOutputs before s).clockMs = s.clockMs := rfl
  cases hm : s.mode with
  | idle => rw [tick_idle hm, tick_idle (hmode.trans hm), mapNext_next]
  | running =>
    cases ht : s.timer with
    | none => rw [tick_no_timer ht, tick_no_timer (htimer.trans ht), mapNext_next]
    | some tm =>
      rw [tick_running hm ht, tick_running (hmode.trans hm) (htimer.trans ht), hclock]
      split
      · exact deliver_withEarlierOutputs before { s with timer := some { tm with lastTickMs := some s.clockMs } } s.listeners
      · rfl

/-! ### The step -/

theorem perform_withEarlierOutputs (input : Input) :
    perform input (withEarlierOutputs before s) = mapNext (withEarlierOutputs before) (perform input s) := by
  cases input with
  | command tr => exact runCommand_withEarlierOutputs before s tr
  | read a => simp [perform, runRead]
  | reset lo hi dflt => exact runReset_withEarlierOutputs before s lo hi dflt
  | construct c => exact construct_withEarlierOutputs before s c
  | asm line => exact runAsm_withEarlierOutputs before s line
  | call c => exact runCall_withEarlierOutputs before s c
  | listen l => simp [perform]
  | start vs cb => exact start_withEarlierOutputs before s vs cb
  | enterRunning => simp [perform]
  | stop => simp [perform]
  | tick => exact tick_withEarlierOutputs before s
  | elapse ms => rfl

theorem step_withEarlierOutputs :
    step (withEarlierOutputs before s) = mapNext (withEarlierOutputs before) (step s) := by
  have hinputs : (withEarlierOutputs before s).inputs = s.inputs := rfl
  cases hi : s.inputs with
  | nil => rw [step_nil hi, step_nil (hinputs.trans hi), mapNext_next]
  | cons input rest =>
    rw [step_cons hi, step_cons (hinputs.trans hi)]
    exact perform_withEarlierOutputs before { s with inputs := rest } input

end

/-- Settles O10: `step_withEarlierOutputs`, read at each of the three outcomes. -/
theorem outputsAreNeverReadBack : Obligations.OutputsAreNeverReadBack := by
  intro s before
  change (∀ t, step s = .next t → step (withEarlierOutputs before s) = .next (withEarlierOutputs before t)) ∧
    (∀ r, step s = .fault r → step (withEarlierOutputs before s) = .fault r) ∧
    (∀ r, step s = .refused r → step (withEarlierOutputs before s) = .refused r)
  rw [step_withEarlierOutputs]
  exact ⟨fun t h => by rw [h, mapNext_next], fun r h => by rw [h, mapNext_fault], fun r h => by rw [h, mapNext_refused]⟩

end Sys2Proof.Machine
end

section
/-! The ports (spec/20_memory.md R43 to R48): the step on a command that decodes and on a read, the read port's map address by
address, and what a run of reads with no command between them gives out. -/

namespace Sys2Proof.Machine

/-! ### One step of a port -/

theorem step_command {s : State} {t : Transaction} {rest : List Input} {i : Instr} (h : s.inputs = .command t :: rest)
    (hd : decode t = .ok i) : step s = exec i { s with inputs := rest } := by
  rw [step_cons h, perform, runCommand, hd]

/-- A read gives out RDATA and changes nothing (R45). -/
theorem step_read {s : State} {a : ReadAddr} {rest : List Input} (h : s.inputs = .read a :: rest) :
    step s = .next { s with inputs := rest, outputs := s.outputs ++ [.rdata (readPort s a)] } :=
  step_cons h

/-! ### The read port's map (R44) -/

theorem readAddr_eq_ofNat {a : ReadAddr} {n : Nat} (h : a.toNat = n) : a = BitVec.ofNat 6 n := by
  rw [← h, BitVec.ofNat_toNat, BitVec.setWidth_eq]

/-- RDATA depends on the registers alone, not on what waits or has been given out at the ports (R44). -/
@[simp] theorem readPort_with_ports (s : State) (inputs : List Input) (outputs : List Output) (a : ReadAddr) :
    readPort { s with inputs := inputs, outputs := outputs } a = readPort s a := rfl

theorem readPort_reserved (s : State) {a : ReadAddr} (h : 0x3C ≤ a.toNat) : readPort s a = 0x00#8 := by
  rw [readPort, dif_neg (by omega), dif_neg (by omega)]

/-! ### Runs of reads -/

/-- With no command between them, the reads all see the registers the first one sees (R45, R48). -/
theorem run_reads (as : List ReadAddr) {s : State} {rest : List Input} (h : s.inputs = as.map .read ++ rest) :
    Host.Core.run core as.length s =
      .next { s with inputs := rest, outputs := s.outputs ++ as.map (fun a => .rdata (readPort s a)) } := by
  induction as generalizing s with
  | nil =>
    obtain rfl : s.inputs = rest := h
    simp [run_zero]
  | cons a as ih =>
    have hread := step_read (rest := as.map Input.read ++ rest) h
    rw [List.length_cons, run_succ_of_step hread, ih rfl]
    simp

theorem run_readsFrom {first count : Nat} {s : State} {rest : List Input} (h : s.inputs = readsFrom first count ++ rest) :
    Host.Core.run core count s =
      .next { s with
        inputs := rest
        outputs := s.outputs ++ (List.range count).map (fun k => .rdata (readPort s (BitVec.ofNat 6 (first + k)))) } := by
  have hrun := run_reads ((List.range count).map fun k => BitVec.ofNat 6 (first + k)) (s := s) (rest := rest)
    (by rw [h, readsFrom, List.map_map]; rfl)
  rwa [List.length_map, List.length_range, List.map_map] at hrun

/-- The bytes at 0x00..0x1F in offset order are the frame (R43). -/
theorem map_readPort_frame (s : State) :
    (List.range 32).map (fun k => Output.rdata (readPort s (BitVec.ofNat 6 (0x00 + k)))) = s.fb.toList.map .rdata := by
  refine List.ext_getElem (by simp) fun k hk _ => ?_
  have hk : k < 32 := by simpa using hk
  simp [readPort_frame s k hk]

/-- A list over `2 * n` addresses, two addresses at a time. -/
theorem map_range_two_mul {α : Type} (f : Nat → α) (n : Nat) :
    (List.range (2 * n)).map f = (List.range n).flatMap fun i => [f (2 * i), f (2 * i + 1)] := by
  induction n with
  | zero => rfl
  | succ n ih =>
    rw [Nat.mul_succ, List.range_succ, List.range_succ, List.range_succ, List.flatMap_append, ← ih]
    simp

theorem channels_toList (ch : Channels) : ch.toList = (List.finRange 14).map fun i => ch[i.val] := by
  refine List.ext_getElem (by simp) fun i _ _ => ?_
  simp

/-- The bytes at 0x20..0x3B in rising order are the channels, each low byte first (R44). -/
theorem map_readPort_channels (s : State) :
    (List.range 28).map (fun k => Output.rdata (readPort s (BitVec.ofNat 6 (0x20 + k)))) =
      s.ch.toList.flatMap fun v => [.rdata (lowByte v), .rdata (highByte v)] := by
  rw [map_range_two_mul _ 14, channels_toList, ← List.map_coe_finRange_eq_range, List.flatMap_map, List.flatMap_map]
  refine List.flatMap_congr fun i _ => ?_
  obtain ⟨hlow, hhigh⟩ := readPort_channel s i
  have hodd : 0x20 + (2 * i.val + 1) = 0x21 + 2 * i.val := by omega
  rw [hodd, hlow, hhigh]

/-! ### The statements -/

/-- Settles O5: the step of a command that decodes. -/
theorem stepRunsTheDecodedCommand : Obligations.StepRunsTheDecodedCommand :=
  fun _ _ _ _ h hd => step_command h hd

/-- Settles O35: the read step, with the map at a frame byte, at the two bytes of a channel, and at a reserved address. -/
theorem readPortMap : Obligations.ReadPortMap := by
  intro s a rest h
  refine ⟨readPort s a, step_read h, fun k hk => ?_, fun i hi => ?_, fun i hi => ?_, readPort_reserved s⟩
  · rw [readAddr_eq_ofNat hk, readPort_frame s k.val k.isLt]
  · rw [readAddr_eq_ofNat hi, (readPort_channel s i).1, lowByte]
  · rw [readAddr_eq_ofNat hi, (readPort_channel s i).2, highByte]

/-- Settles O36: the two runs of reads, with the bytes of their address ranges. -/
theorem uninterruptedReadsGiveASnapshot : Obligations.UninterruptedReadsGiveASnapshot := by
  refine fun s rest => ⟨fun h => ?_, fun h => ?_⟩
  · rw [run_readsFrom h, map_readPort_frame]
  · rw [run_readsFrom h, map_readPort_channels]
    simp only [lowByte, highByte]

end Sys2Proof.Machine
end

section
/-! Decoding and encoding (spec/30_encoding.md R61 to R68): the commands a transaction decodes to, the headers the opcode map
admits, the headers the decoder refuses, and the statements O1, O2 and O4. -/

namespace Sys2Proof

/-! ### What the decoder accepts -/

/-- The data-words operand of the command is `d`; ENCODE has none, so it carries any (R65). -/
def Instr.Carries (d : DataWords) : Instr → Prop
  | .setall _ data | .setone _ data | .update _ data | .updch _ data => data = d
  | .encode _ => True

theorem carries_encode_data (i : Instr) : i.Carries (encode i).data := by
  cases i <;> simp [Instr.Carries, encode]

theorem decodeCounted_eq_ok {h : Word} (hidx : idxField h = 0#8) (hn : countLegal (nField h) = true) (i : Instr) :
    decodeCounted h i = .ok i := by
  rw [decodeCounted, if_neg (not_not.2 hidx), if_pos hn]

theorem decodeIndexed_eq_ok {h : Word} (hn : nField h = 0#4) (i : Instr) : decodeIndexed h i = .ok i := by
  rw [decodeIndexed, if_neg (not_not.2 hn)]

/-- A header with the encoding of a well-formed command decodes to it, with the data words at hand (R65, R67). -/
theorem decode_of_encode_header {i : Instr} {d : DataWords} (hw : i.wf = true) (hd : i.Carries d) :
    decode ⟨(encode i).header, d⟩ = .ok i := by
  cases i with
  | setall n data =>
    obtain ⟨rfl, hn⟩ : data = d ∧ countLegal n = true := ⟨hd, hw⟩
    simp [decode, encode, decodeCounted_eq_ok, hn]
  | setone idx data =>
    obtain rfl : data = d := hd
    simp [decode, encode, decodeIndexed_eq_ok]
  | encode n =>
    have hn : countLegal n = true := hw
    simp [decode, encode, decodeCounted_eq_ok, hn]
  | update n data =>
    obtain ⟨rfl, hn⟩ : data = d ∧ countLegal n = true := ⟨hd, hw⟩
    simp [decode, encode, decodeCounted_eq_ok, hn]
  | updch idx data =>
    obtain rfl : data = d := hd
    simp [decode, encode, decodeIndexed_eq_ok]

theorem decode_encode {i : Instr} (hw : i.wf = true) : decode (encode i) = .ok i :=
  decode_of_encode_header hw (carries_encode_data i)

/-- The commands a transaction decodes to: the well-formed ones whose encoding is its header and whose data words are its own
(R65, R67). -/
theorem decode_eq_ok_iff {t : Transaction} {i : Instr} :
    decode t = .ok i ↔ i.wf = true ∧ (encode i).header = t.header ∧ i.Carries t.data := by
  constructor
  · intro h
    obtain ⟨ha, hb, hc, hcmd⟩ := decode_ok_cases h
    have hh := header_eq_headerWord t.header ha hb hc
    obtain ⟨hop, hz, hn, rfl⟩ | ⟨hop, hz, rfl⟩ | ⟨hop, hz, hn, rfl⟩ | ⟨hop, hz, hn, rfl⟩ | ⟨hop, hz, rfl⟩ := hcmd <;>
      exact ⟨decode_wf h, by rw [hop, hz] at hh; exact hh.symm, by simp [Instr.Carries]⟩
  · rintro ⟨hw, hh, hd⟩
    have := decode_of_encode_header hw hd
    rwa [hh] at this

/-! ### The opcode map (R67) -/

/-- Mask and match of a counted command, with N read from H[11:8]. -/
theorem counted_mask_iff (h : Word) (op n : BitVec 4) :
    headerWord op 0#8 n = h ↔ h &&& 0xFFFFF0FF#32 = headerWord op 0#8 0#4 ∧ n = nField h := by
  constructor
  · rintro rfl
    exact ⟨headerWord_counted_mask op n, (nField_headerWord ..).symm⟩
  · rintro ⟨hm, rfl⟩
    obtain ⟨h1, h2, h3, h4, -, h6⟩ := fields_counted_mask h
    rw [hm] at h1 h2 h3 h4 h6
    apply header_ext <;> simp_all

/-- Mask and match of an indexed command, with IDX read from H[23:16]. -/
theorem indexed_mask_iff (h : Word) (op : BitVec 4) (idx : BitVec 8) :
    headerWord op idx 0#4 = h ↔ h &&& 0xFF00FFFF#32 = headerWord op 0#8 0#4 ∧ idx = idxField h := by
  obtain ⟨h1, h2, h3, h4, h5, h6⟩ := fields_indexed_mask h
  constructor
  · rintro rfl
    exact ⟨by apply header_ext <;> simp_all, (idxField_headerWord ..).symm⟩
  · rintro ⟨hm, rfl⟩
    rw [hm] at h1 h2 h4 h5 h6
    apply header_ext <;> simp_all

theorem countLegal_iff (n : BitVec 4) : countLegal n = true ↔ n.toNat ≤ 14 := decide_eq_true_iff

/-- A row of the opcode map with the N limit: SETALL, ENCODE, UPDATE. -/
theorem countedRow_iff (h : Word) (op n : BitVec 4) (p : Prop) :
    countLegal n = true ∧ headerWord op 0#8 n = h ∧ p ↔
      h &&& 0xFFFFF0FF#32 = headerWord op 0#8 0#4 ∧ n = h.extractLsb' 8 4 ∧ n.toNat ≤ 14 ∧ p := by
  rw [counted_mask_iff, countLegal_iff, and_left_comm, and_assoc, nField]

/-- A row of the opcode map without it: SETONE, UPDCH. -/
theorem indexedRow_iff (h : Word) (op : BitVec 4) (idx : BitVec 8) (p : Prop) :
    headerWord op idx 0#4 = h ∧ p ↔
      h &&& 0xFF00FFFF#32 = headerWord op 0#8 0#4 ∧ idx = h.extractLsb' 16 8 ∧ p := by
  rw [indexed_mask_iff, and_assoc, idxField]

/-! ### What the decoder refuses (R68) -/

/-- N = 15 is the one count over the limit. -/
theorem countLegal_eq_false_iff (n : BitVec 4) : countLegal n = false ↔ n = 15#4 := by
  revert n; decide

theorem decodeCounted_error_iff (h : Word) (i : Instr) :
    (∃ e, decodeCounted h i = .error e) ↔ idxField h ≠ 0#8 ∨ nField h = 15#4 := by
  rw [← countLegal_eq_false_iff, decodeCounted]
  split
  · simp_all
  · split <;> simp_all

theorem decodeIndexed_error_iff (h : Word) (i : Instr) :
    (∃ e, decodeIndexed h i = .error e) ↔ nField h ≠ 0#4 := by
  rw [decodeIndexed]
  split <;> simp_all

/-- The decoder refuses the headers that R68 lists, bullet by bullet. -/
theorem decode_error_iff (t : Transaction) :
    (∃ e, decode t = .error e) ↔
      ((opField t.header).toNat = 0 ∨ 6 ≤ (opField t.header).toNat) ∨
      (rsvAField t.header ≠ 0#4 ∨ rsvBField t.header ≠ 0#4 ∨ rsvCField t.header ≠ 0#8) ∨
      ((opField t.header = 1#4 ∨ opField t.header = 3#4 ∨ opField t.header = 4#4) ∧ idxField t.header ≠ 0#8) ∨
      ((opField t.header = 2#4 ∨ opField t.header = 5#4) ∧ nField t.header ≠ 0#4) ∨
      ((opField t.header = 1#4 ∨ opField t.header = 3#4 ∨ opField t.header = 4#4) ∧ nField t.header = 15#4) := by
  by_cases hr : rsvAField t.header ≠ 0#4 ∨ rsvBField t.header ≠ 0#4 ∨ rsvCField t.header ≠ 0#8
  · rw [decode, if_pos hr]
    simp [hr]
  · rw [decode, if_neg hr]
    split
    · rename_i hop
      simp [decodeCounted_error_iff, opField_eq (k := 1) (by omega) hop, hr]
    · rename_i hop
      simp [decodeIndexed_error_iff, opField_eq (k := 2) (by omega) hop, hr]
    · rename_i hop
      simp [decodeCounted_error_iff, opField_eq (k := 3) (by omega) hop, hr]
    · rename_i hop
      simp [decodeCounted_error_iff, opField_eq (k := 4) (by omega) hop, hr]
    · rename_i hop
      simp [decodeIndexed_error_iff, opField_eq (k := 5) (by omega) hop, hr]
    · rename_i h1 h2 h3 h4 h5
      simp only [imp_false] at h1 h2 h3 h4 h5
      have hop : (opField t.header).toNat = 0 ∨ 6 ≤ (opField t.header).toNat := by omega
      simp [hop]

/-- Whether a transaction is refused depends on its header alone (R68). -/
theorem decode_error_of_header_eq {t t' : Transaction} (hh : t.header = t'.header) (h : ∃ e, decode t = .error e) :
    ∃ e, decode t' = .error e := by
  rw [decode_error_iff, hh] at h
  exact (decode_error_iff t').2 h

/-! ### The statements -/

/-- Settles O1: `decode_encode`, and `decode_eq_ok_iff` read forwards, where a command that is not ENCODE carries
every data word. -/
theorem decodeAndEncodeAgree : Obligations.DecodeAndEncodeAgree := by
  refine ⟨fun i => decode_encode, fun t i h => ?_⟩
  obtain ⟨hw, hh, hd⟩ := decode_eq_ok_iff.1 h
  refine ⟨hw, hh, fun hne => ?_⟩
  have hdata : (encode i).data = t.data := by
    cases i with
    | encode limit => exact absurd rfl (hne limit)
    | setall | setone | update | updch => exact hd
  exact congrArg₂ Transaction.mk hh hdata

/-- Settles O2: the well-formed commands with this header (`decode_eq_ok_iff`), row by row of the opcode map. -/
theorem opcodeMapMatchAndMask : Obligations.OpcodeMapMatchAndMask := by
  intro t
  refine ⟨fun n d => ?_, fun idx d => ?_, fun n => ?_, fun n d => ?_, fun idx d => ?_⟩
  all_goals rw [decode_eq_ok_iff]
  · exact countedRow_iff t.header 1#4 n (d = t.data)
  · exact (and_iff_right rfl).trans <| indexedRow_iff t.header 2#4 idx (d = t.data)
  · exact (countedRow_iff t.header 3#4 n True).trans (and_congr_right' (and_congr_right' (and_iff_left trivial)))
  · exact countedRow_iff t.header 4#4 n (d = t.data)
  · exact (and_iff_right rfl).trans <| indexedRow_iff t.header 5#4 idx (d = t.data)

/-- Settles O4: the decoder, run on each of the nine words. -/
theorem writtenOutWordsDecode : Obligations.WrittenOutWordsDecode :=
  ⟨rfl, rfl, rfl, rfl, rfl, rfl, rfl, rfl, rfl⟩

end Sys2Proof
end

section
/-! One transaction (spec/30_encoding.md R60, R65, R68, R72, spec/60_exceptions.md R130 to R134): its one response, what a
failing one leaves, the data words it does not look at, and the statements O3, O6 and O8. -/

namespace Sys2Proof

/-! ### The answer of a command -/

/-- STATUS of a well-formed command (R130): IDX decides it. -/
def Instr.status : Instr → Machine.Status
  | .setone idx _ | .updch idx _ => if 14 ≤ idx.toNat then .outOfBounds else .ok
  | .setall _ _ | .encode _ | .update _ _ => .ok

/-- COUNT of a well-formed command (R72): the channels SETALL and UPDATE write. -/
def Instr.count : Instr → BitVec 4
  | .setall n _ | .update n _ => n
  | .setone _ _ | .encode _ | .updch _ _ => 0#4

/-- OUT_OF_BOUNDS is the status of SETONE and UPDCH with IDX ≥ 14 (R131). -/
theorem Instr.status_eq_outOfBounds_iff (i : Instr) :
    i.status = .outOfBounds ↔ ∃ idx d, 14 ≤ idx.toNat ∧ (i = .setone idx d ∨ i = .updch idx d) := by
  cases i <;> simp [Instr.status]

theorem Instr.status_ne_illegalCommand (i : Instr) : i.status ≠ .illegalCommand := by
  cases i <;> simp [Instr.status] <;> split <;> simp

/-- An index that names a channel is no failure. -/
theorem Instr.status_of_channelIndex {idx : BitVec 8} {k : Fin 14} (hk : Machine.channelIndex idx = some k) (d : DataWords) :
    (Instr.setone idx d).status = .ok ∧ (Instr.updch idx d).status = .ok := by
  have hidx : idx.toNat = k.val := (Machine.channelIndex_eq_some_iff idx k).1 hk
  have hlt : ¬ 14 ≤ idx.toNat := by omega
  exact ⟨if_neg hlt, if_neg hlt⟩

/-- STATUS of a transaction: the legality check first, then the command (R69, R130). -/
def Transaction.status (t : Transaction) : Machine.Status :=
  match decode t with
  | .ok i => i.status
  | .error _ => .illegalCommand

/-- COUNT of a transaction, read from its header (R62, R72). -/
def Transaction.count (t : Transaction) : BitVec 4 :=
  if t.status = .ok ∧ (opField t.header = 1#4 ∨ opField t.header = 4#4) then nField t.header else 0#4

section
variable {t : Transaction}

theorem Transaction.status_of_ok {i : Instr} (h : decode t = .ok i) : t.status = i.status := by
  rw [status, h]

theorem Transaction.status_of_error {e : Illegal} (h : decode t = .error e) : t.status = .illegalCommand := by
  rw [status, h]

theorem Transaction.count_of_ok {i : Instr} (h : decode t = .ok i) : t.count = i.count := by
  rw [count, status_of_ok h, ← (decode_eq_ok_iff.1 h).2.1]
  cases i <;> simp [encode, Instr.count, Instr.status]

theorem Transaction.count_of_error {e : Illegal} (h : decode t = .error e) : t.count = 0#4 := by
  simp [count, status_of_error h]

theorem Transaction.status_eq_illegalCommand_iff : t.status = .illegalCommand ↔ ∃ e, decode t = .error e := by
  cases h : decode t with
  | ok i => simp [status_of_ok h, i.status_ne_illegalCommand]
  | error e => simp [status_of_error h]

theorem Transaction.status_eq_outOfBounds_iff :
    t.status = .outOfBounds ↔
      ∃ idx d, 14 ≤ idx.toNat ∧ (decode t = .ok (.setone idx d) ∨ decode t = .ok (.updch idx d)) := by
  cases h : decode t with
  | ok i => simp [status_of_ok h, i.status_eq_outOfBounds_iff]
  | error e => simp [status_of_error h]

end

namespace Machine

/-- Every well-formed command ends with its one response, and when it fails CH and FB are as they were (R130, R134). -/
theorem exec_answers {i : Instr} (hw : i.wf = true) (s : State) :
    ∃ ch fb, exec i s = .next (respond i.status i.count { s with ch := ch, fb := fb }) ∧
      (i.status ≠ .ok → ch = s.ch ∧ fb = s.fb) := by
  obtain ⟨hf, -⟩ | ⟨idx, d, hi, hidx, e⟩ | ⟨n, d, rfl, -, e⟩ | ⟨idx, d, k, rfl, hk, e⟩ | ⟨n, rfl, -, e⟩ |
    ⟨n, d, rfl, -, e⟩ | ⟨idx, d, k, rfl, hk, e⟩ := exec_cases i s
  · rw [hw] at hf; cases hf
  · have hst : i.status = .outOfBounds := i.status_eq_outOfBounds_iff.2 ⟨idx, d, hidx, hi⟩
    have hcount : i.count = 0#4 := by obtain rfl | rfl := hi <;> rfl
    exact ⟨s.ch, s.fb, by rw [hst, hcount, e], fun _ => ⟨rfl, rfl⟩⟩
  · exact ⟨_, _, e, fun h => absurd rfl h⟩
  · have hst := (Instr.status_of_channelIndex hk d).1
    exact ⟨_, _, by rw [hst]; exact e, fun h => absurd hst h⟩
  · exact ⟨_, _, e, fun h => absurd rfl h⟩
  · exact ⟨_, _, e, fun h => absurd rfl h⟩
  · have hst := (Instr.status_of_channelIndex hk d).2
    exact ⟨_, _, by rw [hst]; exact e, fun h => absurd hst h⟩

theorem runCommand_of_error {t : Transaction} {e : Illegal} (h : decode t = .error e) (s : State) :
    runCommand t s = .next (respond .illegalCommand 0#4 s) := by
  rw [runCommand, h]

/-- Every transaction ends with its one response, and when it fails CH and FB are as they were (R130, R132, R134). -/
theorem runCommand_answers (t : Transaction) (s : State) :
    ∃ ch fb, runCommand t s = .next (respond t.status t.count { s with ch := ch, fb := fb }) ∧
      (t.status ≠ .ok → ch = s.ch ∧ fb = s.fb) := by
  cases h : decode t with
  | ok i =>
    rw [runCommand, h, Transaction.status_of_ok h, Transaction.count_of_ok h]
    exact exec_answers (decode_wf h) s
  | error e =>
    rw [Transaction.status_of_error h, Transaction.count_of_error h]
    exact ⟨s.ch, s.fb, runCommand_of_error h s, fun _ => ⟨rfl, rfl⟩⟩

/-- The STATUS codes tell the outcomes apart (R72). -/
theorem Status.code_eq_iff (a b : Status) : a.code = b.code ↔ a = b := by
  cases a <;> cases b <;> decide

end Machine

/-! ### The data words a command does not look at -/

/-- The command with `d` for its data words. -/
def Instr.withData (d : DataWords) : Instr → Instr
  | .setall n _ => .setall n d
  | .setone idx _ => .setone idx d
  | .encode limit => .encode limit
  | .update n _ => .update n d
  | .updch idx _ => .updch idx d

/-- The command uses DATA[j] (R65). -/
def Instr.UsesWord (j : Fin 14) : Instr → Prop
  | .setall n _ | .update n _ => j.val < n.toNat
  | .setone _ _ | .updch _ _ => j.val = 0
  | .encode _ => False

theorem Instr.Carries.withData_eq {i : Instr} {d : DataWords} (h : i.Carries d) : i.withData d = i := by
  cases i with
  | encode limit => rfl
  | setall | setone | update | updch => obtain rfl : _ = d := h; rfl

/-- Equal headers decode to the same command, each with its own data words. -/
theorem decode_of_header_eq {t t' : Transaction} {i : Instr} (hh : t.header = t'.header) (h : decode t = .ok i) :
    decode t' = .ok (i.withData t'.data) := by
  obtain ⟨hw, henc, -⟩ := decode_eq_ok_iff.1 h
  rw [hh] at henc
  refine decode_eq_ok_iff.2 ?_
  cases i <;> exact ⟨hw, henc, by simp [Instr.withData, Instr.Carries]⟩

/-- The words a command uses, read from its header (R62, R65). -/
theorem Instr.UsesWord.header {t : Transaction} {i : Instr} {j : Fin 14} (h : decode t = .ok i) (hj : i.UsesWord j) :
    ((opField t.header = 1#4 ∨ opField t.header = 4#4) ∧ j.val < (nField t.header).toNat) ∨
      ((opField t.header = 2#4 ∨ opField t.header = 5#4) ∧ j.val = 0) := by
  rw [← (decode_eq_ok_iff.1 h).2.1]
  cases i with
  | encode limit => exact hj.elim
  | setall | setone | update | updch => simpa [Sys2Proof.encode, UsesWord] using hj

namespace Machine

/-- The store loop reads the data words below its count alone (R65, R82). -/
theorem storeChannels_congr {n : Nat} {d d' : DataWords} (h : ∀ j : Fin 14, j.val < n → d[j.val] = d'[j.val]) (s : State) :
    storeChannels n d s = storeChannels n d' s := by
  have hch : storeAll s.cfgMin s.cfgMax n d s.ch = storeAll s.cfgMin s.cfgMax n d' s.ch := by
    ext1 k hk
    rw [storeAll_get _ _ _ _ _ ⟨k, hk⟩, storeAll_get _ _ _ _ _ ⟨k, hk⟩]
    split
    · next hlt => rw [h ⟨k, hk⟩ hlt]
    · rfl
  rw [storeChannels, hch, storeChannels]

/-- A command reads the data words it uses and no others (R65). -/
theorem exec_withData_congr {i : Instr} {d d' : DataWords} (h : ∀ j : Fin 14, i.UsesWord j → d[j.val] = d'[j.val])
    (s : State) : exec (i.withData d) s = exec (i.withData d') s := by
  cases i with
  | setall n _ => simp only [Instr.withData, exec, execSetall, storeChannels_congr h]
  | setone idx _ =>
    have h0 : d[0] = d'[0] := h 0 rfl
    simp only [Instr.withData, exec, execSetone, h0]
  | encode limit => rfl
  | update n _ => simp only [Instr.withData, exec, execUpdate, storeChannels_congr h]
  | updch idx _ =>
    have h0 : d[0] = d'[0] := h 0 rfl
    simp only [Instr.withData, exec, execUpdch, h0]

theorem runCommand_of_ok {t : Transaction} {i : Instr} (h : decode t = .ok i) (s : State) : runCommand t s = exec i s := by
  rw [runCommand, h]

/-! ### The statements -/

/-- Settles O3: the decoder's refusals are `decode_error_iff`; a refused transaction only responds. -/
theorem illegalHeadersChangeNothing : Obligations.IllegalHeadersChangeNothing := by
  refine ⟨decode_error_iff, fun s t rest hin ⟨e, he⟩ => ?_⟩
  rw [step_cons hin, perform, runCommand_of_error he]
  rfl

/-- Settles O6: the response is the word of the transaction's STATUS and COUNT. -/
theorem everyCommandEndsWithOneResponse : Obligations.EveryCommandEndsWithOneResponse := by
  intro s t rest hin
  obtain ⟨ch, fb, hrun, hfail⟩ := runCommand_answers t { s with inputs := rest }
  obtain ⟨hzero, hstatus, hcount⟩ := responseWord_fields t.status t.count
  refine ⟨ch, fb, responseWord t.status t.count, (step_cons hin).trans hrun, hzero, ?_⟩
  have hok : t.status.code = 0#8 ↔ t.status = .ok := Status.code_eq_iff _ .ok
  have hbounds : t.status.code = 1#8 ↔ t.status = .outOfBounds := Status.code_eq_iff _ .outOfBounds
  have hillegal : t.status.code = 2#8 ↔ t.status = .illegalCommand := Status.code_eq_iff _ .illegalCommand
  rw [hstatus, hcount]
  refine ⟨hillegal.trans Transaction.status_eq_illegalCommand_iff, hbounds.trans Transaction.status_eq_outOfBounds_iff, ?_,
    fun h => hfail (mt hok.2 h), (if_congr (and_congr_left' hok) rfl rfl).symm⟩
  cases t.status <;> simp [Status.code]

/-- Settles O8: the other transaction decodes to the same command with its own data words, of which the command looks at the
equal ones. -/
theorem unusedDataWordsHaveNoEffect : Obligations.UnusedDataWordsHaveNoEffect := by
  intro s t t' rest hh hdata
  change runCommand t { s with inputs := rest } = runCommand t' { s with inputs := rest }
  cases h : decode t with
  | error e =>
    obtain ⟨e', h'⟩ := decode_error_of_header_eq hh ⟨e, h⟩
    rw [runCommand_of_error h, runCommand_of_error h']
  | ok i =>
    have hcar : i.withData t.data = i := (decode_eq_ok_iff.1 h).2.2.withData_eq
    rw [runCommand_of_ok h, runCommand_of_ok (decode_of_header_eq hh h), ← exec_withData_congr, hcar]
    exact fun j hj => hdata j (hj.header h)

end Machine
end Sys2Proof
end

section
/-! How the host forms transactions (spec/30_encoding.md R71, R73, R74): the operands an assembler takes or refuses, the
transactions of the assembly lines, the mapping of the document's integers onto words, and the statements O37, O38 and O39. -/

namespace Sys2Proof.Machine

/-! ### The operands of a line (R71) -/

/-- The integers a value operand can be. -/
abbrev IsInt32 (v : Int) : Prop := -2 ^ 31 ≤ v ∧ v ≤ 2 ^ 31 - 1

theorem valueWord_eq_some {v : Int} (h : IsInt32 v) : valueWord v = some (BitVec.ofInt 32 v) := if_pos h

theorem valueWord_eq_none {v : Int} (h : ¬ IsInt32 v) : valueWord v = none := if_neg h

theorem indexOperand_eq_some {idx : Int} (h : 0 ≤ idx ∧ idx ≤ 255) : indexOperand idx = some (BitVec.ofInt 8 idx) :=
  if_pos h

theorem indexOperand_eq_none {idx : Int} (h : ¬ (0 ≤ idx ∧ idx ≤ 255)) : indexOperand idx = none := if_neg h

/-- The words of a list of values. -/
def valueWords (values : List Int) : List Word := values.map (BitVec.ofInt 32)

theorem mapM_valueWord {values : List Int} (h : ∀ v ∈ values, IsInt32 v) :
    values.mapM valueWord = some (valueWords values) := by
  induction values with
  | nil => rfl
  | cons v vs ih =>
    rw [List.mapM_cons, valueWord_eq_some (h v List.mem_cons_self), ih fun u hu => h u (List.mem_cons_of_mem v hu)]
    rfl

theorem mapM_valueWord_eq_none {values : List Int} (h : ∃ v ∈ values, ¬ IsInt32 v) : values.mapM valueWord = none := by
  induction values with
  | nil => simp at h
  | cons v vs ih =>
    obtain ⟨u, hu, hn⟩ := h
    rw [List.mapM_cons]
    obtain rfl | hu := List.mem_cons.1 hu
    · rw [valueWord_eq_none hn]
      rfl
    · rw [ih ⟨u, hu, hn⟩]
      cases valueWord v <;> rfl

/-- At most 14 values, each an int32, are a count and data words. -/
theorem valueOperands_eq_some {values : List Int} (hlen : values.length ≤ 14) (h : ∀ v ∈ values, IsInt32 v) :
    valueOperands values = some (BitVec.ofNat 4 values.length, dataWords (valueWords values)) := by
  rw [valueOperands, if_pos hlen, mapM_valueWord h]
  rfl

theorem valueOperands_eq_none {values : List Int} (h : 14 < values.length ∨ ∃ v ∈ values, ¬ IsInt32 v) :
    valueOperands values = none := by
  rw [valueOperands]
  split
  · rw [mapM_valueWord_eq_none (h.resolve_left (by omega))]
    rfl
  · rfl

theorem dataWords_get (ws : List Word) (j : Fin 14) : (dataWords ws)[j.val] = ws.getD j.val 0#32 := by
  simp [dataWords]

/-- The block reads back the values of a line, and 0 in the data words the line leaves (R10, R71). -/
theorem sext32_dataWords {values : List Int} (h : ∀ v ∈ values, IsInt32 v) (j : Fin 14) :
    sext32 (dataWords (valueWords values))[j.val] = values.getD j.val 0 := by
  rw [dataWords_get, valueWords]
  by_cases hj : j.val < values.length
  · simpa [hj] using sext32_ofInt _ (h _ (List.getElem_mem hj))
  · simp [hj, sext32]

/-! ### The transactions of the lines (R61, R71) -/

/-- The count of a line is a legal N (R64). -/
theorem countLegal_ofNat {n : Nat} (h : n ≤ 14) : countLegal (BitVec.ofNat 4 n) = true := by
  rw [countLegal_iff, BitVec.toNat_ofNat]
  omega

theorem headerWord_of_count (op : BitVec 4) {n : Nat} (h : n ≤ 14) :
    headerWord op 0#8 (BitVec.ofNat 4 n) = BitVec.ofNat 32 (op.toNat * 0x10000000 + n * 0x100) := by
  have := op.isLt
  apply BitVec.eq_of_toNat_eq
  simp only [headerWord_toNat, BitVec.toNat_ofNat]
  omega

theorem headerWord_of_index (op : BitVec 4) {idx : Nat} (h : idx ≤ 255) :
    headerWord op (BitVec.ofNat 8 idx) 0#4 = BitVec.ofNat 32 (op.toNat * 0x10000000 + idx * 0x10000) := by
  have := op.isLt
  apply BitVec.eq_of_toNat_eq
  simp only [headerWord_toNat, BitVec.toNat_ofNat]
  omega

theorem assemble_counted {values : List Int} (hlen : values.length ≤ 14) (h : ∀ v ∈ values, IsInt32 v) :
    assemble (.setall values) = some [encode (.setall (BitVec.ofNat 4 values.length) (dataWords (valueWords values)))] ∧
      assemble (.update values) = some [encode (.update (BitVec.ofNat 4 values.length) (dataWords (valueWords values)))] := by
  rw [assemble, assemble, valueOperands_eq_some hlen h]
  exact ⟨rfl, rfl⟩

theorem assemble_counted_eq_none {values : List Int} (h : 14 < values.length ∨ ∃ v ∈ values, ¬ IsInt32 v) :
    assemble (.setall values) = none ∧ assemble (.update values) = none := by
  rw [assemble, assemble, valueOperands_eq_none h]
  exact ⟨rfl, rfl⟩

theorem ofInt_eq_ofNat_toNat {w : Nat} {v : Int} (h : 0 ≤ v) : BitVec.ofInt w v = BitVec.ofNat w v.toNat := by
  obtain ⟨n, rfl⟩ := Int.eq_ofNat_of_zero_le h
  simp

theorem assemble_indexed {idx v : Int} (hidx : 0 ≤ idx ∧ idx ≤ 255) (hv : IsInt32 v) :
    assemble (.setone idx v) = some [encode (.setone (BitVec.ofNat 8 idx.toNat) (dataWords (valueWords [v])))] ∧
      assemble (.updch idx v) = some [encode (.updch (BitVec.ofNat 8 idx.toNat) (dataWords (valueWords [v])))] := by
  rw [assemble, assemble, indexOperand_eq_some hidx, valueWord_eq_some hv, ofInt_eq_ofNat_toNat hidx.1]
  exact ⟨rfl, rfl⟩

theorem assemble_indexed_eq_none {idx v : Int} (h : ¬ (0 ≤ idx ∧ idx ≤ 255) ∨ ¬ IsInt32 v) :
    assemble (.setone idx v) = none ∧ assemble (.updch idx v) = none := by
  rw [assemble, assemble]
  obtain h | h := h
  · rw [indexOperand_eq_none h]
    exact ⟨rfl, rfl⟩
  · rw [valueWord_eq_none h]
    cases indexOperand idx <;> exact ⟨rfl, rfl⟩

theorem assemble_encode {lim : Int} (h : 0 ≤ lim ∧ lim ≤ 14) :
    assemble (.encode lim) = some [encode (.encode (BitVec.ofNat 4 lim.toNat))] := by
  rw [assemble, limitOperand, if_pos h, ofInt_eq_ofNat_toNat h.1]
  rfl

theorem assemble_encode_eq_none {lim : Int} (h : ¬ (0 ≤ lim ∧ lim ≤ 14)) : assemble (.encode lim) = none := by
  rw [assemble, limitOperand, if_neg h]
  rfl

/-! ### The mapping of document operands (R74) -/

theorem ofInt8_toNat {v : Int} (h : 0 ≤ v ∧ v ≤ 255) : ((BitVec.ofInt 8 v).toNat : Int) = v := by
  rw [BitVec.toNat_ofInt]
  omega

/-- Every document index has an IDX (R74(a)). -/
theorem hostIndex_range (index : Int) : 0 ≤ hostIndex index ∧ hostIndex index ≤ 255 := by
  unfold hostIndex
  split <;> omega

/-- An index outside 0..255 is sent as 0xFF, which names no channel, as the index names none (R63, R74(a)). -/
theorem hostIndex_eq_channel_iff (index : Int) (k : Fin 14) : hostIndex index = (k.val : Int) ↔ index = (k.val : Int) := by
  have := k.isLt
  unfold hostIndex
  split <;> omega

/-- Every document value has a data word (R74(b)). -/
theorem isInt32_hostValue (value : Int) : IsInt32 (hostValue value) := by
  unfold hostValue
  omega

/-- Saturating to int32 leaves the result of the clamp unit, whose bounds are 16-bit (R74(b), R80). -/
theorem clamp_hostValue (lo hi : Half) (value : Int) : clamp lo hi (hostValue value) = clamp lo hi value := by
  have hlo := lo.isLt
  have hhi := hi.isLt
  have hsat : hostValue value = value ∨ (value < -2 ^ 31 ∧ hostValue value = -2 ^ 31) ∨
      (2 ^ 31 - 1 < value ∧ hostValue value = 2 ^ 31 - 1) := by
    unfold hostValue
    omega
  obtain e | ⟨hv, e⟩ | ⟨hv, e⟩ := hsat
  · rw [e]
  · have below (v : Int) (hv : v < 0) : clamp lo hi v = lo := if_pos (by omega)
    rw [below _ (by omega), below _ (by omega)]
  · have above (v : Int) (hv : 2 ^ 16 ≤ v) : clamp lo hi v = hi := (if_neg (by omega)).trans (if_pos (by omega))
    rw [above _ (by omega), above _ (by omega)]

/-! ### The statements -/

/-- Settles O37: each line's transaction is the encoding of its command, whose header is written out as a sum. -/
theorem assemblyLinesGiveTheirCommands : Obligations.AssemblyLinesGiveTheirCommands := by
  refine ⟨fun values hlen hv => ?_, fun idx v hidx hv => ?_, fun lim hlim => ?_, fun values => assemble_counted_eq_none,
    fun idx v => assemble_indexed_eq_none, fun lim => assemble_encode_eq_none⟩
  · have header (op : BitVec 4) := headerWord_of_count op hlen
    have hcount := countLegal_ofNat hlen
    have hset := decode_encode (i := .setall _ (dataWords (valueWords values))) hcount
    have hupd := decode_encode (i := .update _ (dataWords (valueWords values))) hcount
    obtain ⟨aset, aupd⟩ := assemble_counted hlen hv
    simp only [encode, header] at hset hupd aset aupd
    exact ⟨_, sext32_dataWords hv, aset, aupd, hset, hupd⟩
  · have header (op : BitVec 4) := headerWord_of_index op (idx := idx.toNat) (by omega)
    have hone := decode_encode (i := .setone (BitVec.ofNat 8 idx.toNat) (dataWords (valueWords [v]))) rfl
    have hch := decode_encode (i := .updch (BitVec.ofNat 8 idx.toNat) (dataWords (valueWords [v]))) rfl
    obtain ⟨aone, ach⟩ := assemble_indexed hidx hv
    simp only [encode, header] at hone hch aone ach
    exact ⟨_, sext32_dataWords (values := [v]) (List.forall_mem_singleton.2 hv) 0,
      fun j hj => by simp [dataWords_get, valueWords, hj], aone, ach, hone, hch⟩
  · rw [assemble_encode hlim, encode, headerWord_of_count _ (by omega)]
    rfl

/-- Settles O38: each expansion is the one of its definition. -/
theorem documentOperationsExpandToCommands : Obligations.DocumentOperationsExpandToCommands := by
  refine ⟨rfl, fun values t => ?_, fun values t h => ?_, fun values t h => ?_, fun index value t h => ?_,
    fun index value t h => ?_, fun lim t h => ?_, rfl, rfl⟩
  · cases h : valueOperands values <;> simp [assemble, h]
  all_goals simp [hostActions, h, issue]

/-- Settles O39: the saturated operands are in range, and saturation moves no channel index and no clamp result. -/
theorem hostOperandMapping : Obligations.HostOperandMapping := by
  refine ⟨fun index => ?_, fun value lo hi => ?_, fun values hlen => ?_⟩
  · have hrange := hostIndex_range index
    have htoNat := ofInt8_toNat hrange
    refine ⟨_, indexOperand_eq_some hrange, fun hout => ?_, fun k => ?_⟩
    · rw [hostIndex, if_neg hout]
      rfl
    · rw [channelIndex_eq_some_iff, ← hostIndex_eq_channel_iff]
      omega
  · have hw := sext32_ofInt _ (isInt32_hostValue value)
    refine ⟨_, valueWord_eq_some (isInt32_hostValue value), fun hlow => ?_, fun hhigh => ?_, ?_⟩
    · rw [hw, hostValue]
      omega
    · rw [hw, hostValue]
      omega
    · rw [hw, clamp_hostValue]
  · obtain ⟨hset, hupd⟩ := assemble_counted_eq_none (values := values.map hostValue) (.inl (by simpa using hlen))
    rw [hostActions, hset, hostActions, hupd]
    exact ⟨rfl, rfl⟩

end Sys2Proof.Machine
end

section
/-! `start` (spec/60_exceptions.md R144), when its `listen`, if it has one, finds room: what it leaves for the host to do next,
the run of those steps, and the statement O42. -/

namespace Sys2Proof.Machine

/-! ### Steps 1 and 2: stop, then listen -/

/-- The state after steps 1 and 2 of `start` (R143, R144, R145). -/
def registered (callback : Option Listener) (s : State) : State :=
  { s with
    mode := .idle
    listeners := (if s.mode = .running then [] else s.listeners) ++ callback.toList
    timer := if s.mode = .running then none else s.timer }

theorem stopBroadcast_eq (s : State) : stopBroadcast s = registered none s := by
  obtain ⟨_, _, _, _, _, mode, _, _, _, _, _, _, _⟩ := s
  cases mode <;> simp [stopBroadcast, registered]

/-- L has room for the callback once the broadcast is stopped (R143). -/
def HasRoom (callback : Option Listener) (s : State) : Prop :=
  ∀ l, callback = some l → (if s.mode = .running then 0 else s.listeners.length) ≠ s.maxListeners

theorem listenersFull_stopBroadcast {l : Listener} {s : State} (h : HasRoom (some l) s) :
    listenersFull (stopBroadcast s) = false := by
  have hlen := h l rfl
  rw [listenersFull, stopBroadcast_eq, decide_eq_false_iff_not]
  cases hm : s.mode <;> simpa [registered, hm] using hlen

/-- With room for the callback, `start` goes on to its steps 3 and 4. -/
theorem start_of_hasRoom {callback : Option Listener} {s : State} (h : HasRoom callback s) (values : Option (List Int)) :
    start values callback s = startStoring values (registered callback s) := by
  cases callback with
  | none => rw [start, stopBroadcast_eq]
  | some l =>
    have hfull := listenersFull_stopBroadcast h
    have hadd : addListener l (stopBroadcast s) = registered (some l) s := by
      rw [addListener, hfull, stopBroadcast_eq]
      simp [registered]
    simp only [start, hfull, hadd, Bool.false_eq_true, if_false]

/-- The step of `start`, with room for the callback. -/
theorem step_start {s : State} {callback : Option Listener} {rest : List Input} {values : Option (List Int)}
    (hroom : HasRoom callback s) (h : s.inputs = .start values callback :: rest) :
    step s = startStoring values { registered callback s with inputs := rest } := by
  have hroom : HasRoom callback { s with inputs := rest } := hroom
  rw [step_cons h, perform, start_of_hasRoom hroom]
  rfl

/-! ### Steps 3 and 4: store and encode, then enter Running -/

/-- A transaction that encodes a well-formed command runs it. -/
theorem step_encoded {s : State} {i : Instr} {rest : List Input} (hw : i.wf = true)
    (h : s.inputs = .command (encode i) :: rest) : step s = exec i { s with inputs := rest } :=
  step_command h (decode_encode hw)

theorem step_enterRunning {s : State} {rest : List Input} (hm : s.mode = .idle) (h : s.inputs = .enterRunning :: rest) :
    step s = .next { s with mode := .running, timer := some ⟨s.intervalMs, none⟩, inputs := rest } := by
  rw [step_cons h, perform, enterRunning_of_idle (s := { s with inputs := rest }) hm]

/-- The data words of a document's values: saturated, then as words (R71, R74(b)). -/
def documentWords (values : List Int) : DataWords := dataWords (valueWords (values.map hostValue))

/-- FULLUPDATE of at most 14 document values (R73, R74). -/
theorem assemble_fullupdate {values : List Int} (hlen : values.length ≤ 14) :
    assemble (.fullupdate (values.map hostValue)) =
      some [encode (.setall (BitVec.ofNat 4 values.length) (documentWords values)), encode (.encode 14#4)] := by
  have hops := valueOperands_eq_some (values := values.map hostValue) (by simpa using hlen)
    (by simpa using fun v _ => isInt32_hostValue v)
  rw [List.length_map] at hops
  rw [assemble, hops]
  rfl

/-- The stores of a document's values: the channel of each value is clamped, the others are kept (R74(b), R82). -/
theorem storeChannels_documentWords (values : List Int) (s : State) (i : Fin 14) :
    (storeChannels values.length (documentWords values) s).ch[i.val] =
      if h : i.val < values.length then clamp s.cfgMin s.cfgMax values[i.val] else s.ch[i.val] := by
  have hword := sext32_dataWords (values := values.map hostValue) (by simpa using fun v _ => isInt32_hostValue v) i
  rw [storeChannels_ch, storeAll_get, documentWords, hword]
  split
  · next h => simp [h, clamp_hostValue]
  · rfl

/-- SETALL of at most 14 document values. -/
theorem exec_setall_documentWords {values : List Int} (hlen : values.length ≤ 14) (s : State) :
    exec (.setall (BitVec.ofNat 4 values.length) (documentWords values)) s =
      .next { storeChannels values.length (documentWords values) s with
        outputs := s.outputs ++ [.response (BitVec.ofNat 32 (values.length * 0x100))] } := by
  have hn : (BitVec.ofNat 4 values.length).toNat = values.length := by
    rw [BitVec.toNat_ofNat]
    omega
  rw [exec_setall (by omega), respond, responseWord_ok, hn]
  rfl

/-- The four steps of `start` with values (R144). -/
theorem run_start_values {s : State} {callback : Option Listener} {rest : List Input} {values : List Int}
    (hroom : HasRoom callback s) (h : s.inputs = .start (some values) callback :: rest) (hlen : values.length ≤ 14) :
    Host.Core.run core 4 s =
      .next { encodeFrame 14 (storeChannels values.length (documentWords values) s) with
        mode := .running
        listeners := (if s.mode = .running then [] else s.listeners) ++ callback.toList
        timer := some ⟨s.intervalMs, none⟩
        inputs := rest
        outputs := s.outputs ++ [.response (BitVec.ofNat 32 (values.length * 0x100)), .response 0#32] } := by
  have hstart : step s = .next { registered callback s with
      inputs := issue [encode (.setall (BitVec.ofNat 4 values.length) (documentWords values)), encode (.encode 14#4)] ++
        .enterRunning :: rest } := by
    rw [step_start hroom h, startStoring, assemble_fullupdate hlen]
  have hwf : (Instr.setall (BitVec.ofNat 4 values.length) (documentWords values)).wf = true := countLegal_ofNat hlen
  refine (run_succ_of_step hstart).trans ?_
  refine (run_succ_of_step ((step_encoded hwf rfl).trans (exec_setall_documentWords hlen _))).trans ?_
  refine (run_succ_of_step ((step_encoded (i := .encode 14#4) rfl rfl).trans (exec_encode (by decide) _))).trans ?_
  refine (run_succ_of_step (step_enterRunning rfl rfl)).trans ?_
  have houtputs (a b : Output) : s.outputs ++ [a, b] = (s.outputs ++ [a]) ++ [b] := List.append_cons ..
  rw [run_zero, houtputs]
  rfl

/-- The two steps of `start` without values: the block is untouched (R144). -/
theorem run_start_none {s : State} {callback : Option Listener} {rest : List Input}
    (hroom : HasRoom callback s) (h : s.inputs = .start none callback :: rest) :
    Host.Core.run core 2 s = .next { s with
      inputs := rest, mode := .running, timer := some ⟨s.intervalMs, none⟩
      listeners := (if s.mode = .running then [] else s.listeners) ++ callback.toList } :=
  (run_succ_of_step (step_start hroom h)).trans (run_succ_of_step (step_enterRunning rfl rfl))

/-- `start` with more than 14 values is refused (R74(d), R144). -/
theorem step_start_tooManyValues {s : State} {callback : Option Listener} {rest : List Input} {values : List Int}
    (hroom : HasRoom callback s) (h : s.inputs = .start (some values) callback :: rest) (hlen : 14 < values.length) :
    step s = .refused .tooManyValues := by
  have hops : valueOperands (values.map hostValue) = none := valueOperands_eq_none (.inl (by simpa using hlen))
  rw [step_start hroom h, startStoring, assemble, hops]
  rfl

/-! ### The statement -/

/-- Settles O42: the runs of the four and of the two steps, whose full encode is the one of `encodeFrame_full_coherent` and
`encodeFrame_full_ckValid`. -/
theorem startRunsItsFourSteps : Obligations.StartRunsItsFourSteps := by
  refine fun s callback rest hroom => ⟨fun values h hlen => ?_, run_start_none hroom,
    fun values => step_start_tooManyValues hroom⟩
  exact ⟨_, run_start_values hroom h hlen, rfl, rfl, rfl, rfl, storeChannels_documentWords values s,
    fun i => encodeFrame_full_coherent (storeChannels values.length (documentWords values) s) i,
    encodeFrame_full_ckValid (storeChannels values.length (documentWords values) s), rfl⟩

end Sys2Proof.Machine
end

section
/-! The channel store (spec/40_channel_store.md R80 to R84, R112, R114): the clamp unit's cases and laws, what SETALL and SETONE
leave, and the commands that store and then encode. -/

namespace Sys2Proof.Machine

/-! ### The clamp unit (R80, R81) -/

theorem clamp_of_below {lo : Half} {raw : Int} (h : raw < lo.toNat) (hi : Half) : clamp lo hi raw = lo := if_pos h

theorem clamp_of_above {lo hi : Half} {raw : Int} (hlo : ¬ raw < lo.toNat) (hhi : raw > hi.toNat) : clamp lo hi raw = hi := by
  rw [clamp, if_neg hlo, if_pos hhi]

theorem clamp_toNat_of_within {lo hi : Half} {raw : Int} (hlo : ¬ raw < lo.toNat) (hhi : ¬ raw > hi.toNat) :
    ((clamp lo hi raw).toNat : Int) = raw := by
  rw [clamp_toNat, if_neg hlo, if_neg hhi]

/-- A clamped value is in range, where the clamp unit is the identity. -/
theorem clamp_clamp {lo hi : Half} (h : lo.toNat ≤ hi.toNat) (raw : Int) :
    clamp lo hi ((clamp lo hi raw).toNat : Int) = clamp lo hi raw := by
  obtain ⟨hlo, hhi⟩ := clamp_inRange h raw
  have hid := clamp_toNat_of_within (lo := lo) (hi := hi) (raw := ((clamp lo hi raw).toNat : Int)) (by omega) (by omega)
  exact BitVec.eq_of_toNat_eq (Int.ofNat.inj hid)

/-- With the smaller value below the range, or the larger one above it, the range law decides; otherwise both are in the range
and come through unchanged. -/
theorem clamp_monotone {lo hi : Half} (h : lo.toNat ≤ hi.toNat) {raw raw' : Int} (hle : raw ≤ raw') :
    (clamp lo hi raw).toNat ≤ (clamp lo hi raw').toNat := by
  by_cases hlow : raw < lo.toNat
  · rw [clamp_of_below hlow]
    exact (clamp_inRange h raw').1
  by_cases hhigh : raw' > hi.toNat
  · rw [clamp_of_above (raw := raw') (by omega) hhigh]
    exact (clamp_inRange h raw).2
  have hraw := clamp_toNat_of_within (hi := hi) hlow (by omega)
  have hraw' := clamp_toNat_of_within (lo := lo) (raw := raw') (by omega) hhigh
  omega

/-! ### The stores (R82, R84) -/

theorem storeChannel_get (i : Fin 14) (raw : Int) (s : State) (k : Fin 14) :
    (storeChannel i raw s).ch[k.val] = if k.val = i.val then clamp s.cfgMin s.cfgMax raw else s.ch[k.val] := by
  rw [storeChannel_ch, Vector.getElem_set]
  simp only [eq_comm]

theorem channelIndex_of_lt {idx : BitVec 8} (h : idx.toNat < 14) : channelIndex idx = some ⟨idx.toNat, h⟩ :=
  (channelIndex_eq_some_iff idx _).2 rfl

/-- A count or limit of 15 is no legal one (R64). -/
theorem countLegal_of_fifteen {n : BitVec 4} (h : n.toNat = 15) : countLegal n = false :=
  decide_eq_false (by omega)

/-! ### The statements -/

/-- Settles O11: the three branches of the clamp unit. -/
theorem clampUnitValue : Obligations.ClampUnitValue :=
  fun _ hi _ => ⟨fun h => clamp_of_below h hi, clamp_of_above, clamp_toNat_of_within⟩

/-- Settles O12: the range law gives idempotence and, case by case, monotonicity; the rule's eight values are computed. -/
theorem clampUnitLaws : Obligations.ClampUnitLaws := by
  refine ⟨fun lo hi raw raw' h => ⟨clamp_inRange h raw, fun hlo hhi => ?_, clamp_clamp h raw, clamp_monotone h⟩, by decide⟩
  exact clamp_toNat_of_within (by omega) (by omega)

/-- Settles O13: the store loop, channel by channel, and the illegal count. -/
theorem setallStoresClampedChannels : Obligations.SetallStoresClampedChannels := by
  refine fun n data s => ⟨fun hn => ⟨(storeChannels n.toNat data s).ch, ?_, ?_⟩, fun hn => ?_⟩
  · rw [exec_setall hn, ← responseWord_ok]
    rfl
  · exact storeAll_get s.cfgMin s.cfgMax n.toNat data s.ch
  · exact exec_illegal (i := .setall n data) (countLegal_of_fifteen hn) s

/-- Settles O14: the one store, and the index out of bounds. -/
theorem setoneStoresOneClampedChannel : Obligations.SetoneStoresOneClampedChannel :=
  fun idx data s => ⟨fun h => ⟨_, exec_setone (channelIndex_of_lt h) data s, storeChannel_get ⟨idx.toNat, h⟩ _ s⟩,
    fun h => (exec_outOfBounds h data s).1⟩

/-- Settles O20: a combined command runs the same store and the same encode; the response between them is nothing that an encode
looks at. -/
theorem combinedCommandsAreStoreThenEncode : Obligations.CombinedCommandsAreStoreThenEncode := by
  refine ⟨fun n data s hn => ?_, fun idx data s hidx => ?_⟩
  · exact ⟨_, _, _, exec_setall hn data s, exec_encode hn _, exec_update hn data s, rfl, rfl, rfl⟩
  · have hk := channelIndex_of_lt hidx
    exact ⟨_, _, _, exec_setone hk data s, exec_encode (by decide) _, exec_updch hk data s, rfl, rfl, rfl⟩

end Sys2Proof.Machine
end

section
/-! The frame encoder (spec/41_frame_encoder.md R100 to R114): the checksum unit's laws, the bytes an encode writes and leaves,
when the frame it leaves is valid, and what ENCODE, UPDATE and UPDCH leave. -/

namespace Sys2Proof.Machine

/-! ### The checksum unit (R103) -/

/-- The two header bytes are in every byte sum. -/
theorem header_le_byteSum (limit : Nat) (ch : Channels) : 0x20 + 0x40 ≤ byteSum limit ch := Nat.le_add_right _ _

/-- The ones' complement of the byte sum, which has no more than 16 bits (R103(c)). -/
theorem checksum_eq_not {limit : Nat} (hl : limit ≤ 14) (ch : Channels) :
    checksum limit ch = ~~~(BitVec.ofNat 16 (byteSum limit ch)) := by
  have hsum := byteSum_le hl ch
  have hmod : byteSum limit ch % 2 ^ 16 = byteSum limit ch := Nat.mod_eq_of_lt (by omega)
  apply BitVec.eq_of_toNat_eq
  rw [checksum_toNat hl, BitVec.toNat_not, BitVec.toNat_ofNat, hmod]

/-! ### The channel fields after an encode (R104) -/

/-- A command that ends with an encode writes the frame and its response last (R104, R107). -/
theorem respond_encodeFrame_eq (st : Status) (c : BitVec 4) (limit : Nat) (s : State) :
    respond st c (encodeFrame limit s) =
      { s with fb := (encodeFrame limit s).fb, outputs := s.outputs ++ [.response (responseWord st c)] } := rfl

theorem encodeFrame_field_below {limit : Nat} (s : State) {i : Fin 14} (h : i.val < limit) :
    (encodeFrame limit s).fb[2 + 2 * i.val] = lowByte s.ch[i.val] ∧
      (encodeFrame limit s).fb[3 + 2 * i.val] = highByte s.ch[i.val] := by
  rw [encodeFrame_field_low, encodeFrame_field_high, if_pos h, if_pos h]
  exact ⟨rfl, rfl⟩

theorem encodeFrame_field_above {limit : Nat} (s : State) {i : Fin 14} (h : limit ≤ i.val) :
    (encodeFrame limit s).fb[2 + 2 * i.val] = s.fb[2 + 2 * i.val] ∧
      (encodeFrame limit s).fb[3 + 2 * i.val] = s.fb[3 + 2 * i.val] := by
  rw [encodeFrame_field_low, encodeFrame_field_high, if_neg (by omega), if_neg (by omega)]
  exact ⟨rfl, rfl⟩

theorem fieldValue_encodeFrame_below {limit : Nat} (s : State) {i : Fin 14} (h : i.val < limit) :
    fieldValue (encodeFrame limit s) i = s.ch[i.val] := by
  rw [fieldValue_encodeFrame, if_pos h]

theorem fieldValue_encodeFrame_above {limit : Nat} (s : State) {i : Fin 14} (h : limit ≤ i.val) :
    fieldValue (encodeFrame limit s) i = fieldValue s i := by
  rw [fieldValue_encodeFrame, if_neg (by omega)]

/-- A second encode of the same channels writes the bytes that are there (R107, corner cases). -/
theorem encodeFrame_fb_idem (limit : Nat) (s : State) :
    (encodeFrame limit (encodeFrame limit s)).fb = (encodeFrame limit s).fb := by
  obtain ⟨h0, h1⟩ := encodeFrame_header limit s
  obtain ⟨h0', h1'⟩ := encodeFrame_header limit (encodeFrame limit s)
  obtain ⟨h30, h31⟩ := encodeFrame_checksum limit s
  obtain ⟨h30', h31'⟩ := encodeFrame_checksum limit (encodeFrame limit s)
  have hfield (i : Fin 14) :
      (encodeFrame limit (encodeFrame limit s)).fb[2 + 2 * i.val] = (encodeFrame limit s).fb[2 + 2 * i.val] ∧
        (encodeFrame limit (encodeFrame limit s)).fb[3 + 2 * i.val] = (encodeFrame limit s).fb[3 + 2 * i.val] := by
    rcases Nat.lt_or_ge i.val limit with hi | hi
    · obtain ⟨hlow, hhigh⟩ := encodeFrame_field_below s hi
      obtain ⟨hlow', hhigh'⟩ := encodeFrame_field_below (encodeFrame limit s) hi
      exact ⟨hlow'.trans hlow.symm, hhigh'.trans hhigh.symm⟩
    · exact encodeFrame_field_above (encodeFrame limit s) hi
  exact frame_ext (h0'.trans h0.symm) (h1'.trans h1.symm) (fun i => (hfield i).1) (fun i => (hfield i).2)
    (h30'.trans h30.symm) (h31'.trans h31.symm)

/-! ### When the frame after an encode is valid (R106) -/

/-- Validity looks at the frame alone (R29). -/
theorem ckValid_congr {s t : State} (h : t.fb = s.fb) : ckValid t ↔ ckValid s := by
  simp only [ckValid, storedChecksum, h]

theorem coherent_respond (st : Status) (c : BitVec 4) (s : State) (i : Fin 14) :
    coherent (respond st c s) i ↔ coherent s i := Iff.rfl

theorem ckValid_respond (st : Status) (c : BitVec 4) (s : State) : ckValid (respond st c s) ↔ ckValid s :=
  ckValid_congr rfl

/-- The stored checksum covers the bytes up to the limit, and the sum of all 30 bytes is too small to wrap: the frame is valid
exactly when the bytes past the limit add nothing. -/
theorem ckValid_encodeFrame_iff_frameSum {limit : Nat} (hl : limit ≤ 14) (s : State) :
    ckValid (encodeFrame limit s) ↔
      frameSum (2 + 2 * limit) (encodeFrame limit s).fb = frameSum 30 (encodeFrame limit s).fb := by
  have hcovered := frameSum_encodeFrame s (n := limit) le_rfl hl
  have hcovered_le := byteSum_le hl s.ch
  have hsum_le : frameSum 30 (encodeFrame limit s).fb ≤ 255 * 30 := frameSum_le (by omega) _
  rw [ckValid, storedChecksum_encodeFrame, checksum_toNat hl, hcovered]
  omega

/-- Two sums of frame bytes are equal exactly when the bytes between their ends are zero. -/
theorem frameSum_eq_iff (fb : Frame) {j k : Nat} (hjk : j ≤ k) (hk : k ≤ 32) :
    frameSum j fb = frameSum k fb ↔ ∀ m : Fin 32, j ≤ m.val → m.val < k → fb[m.val] = 0x00#8 := by
  induction k, hjk using Nat.le_induction with
  | base => exact iff_of_true rfl fun m hj hlt => absurd hlt (by omega)
  | succ k hjk ih =>
    have ih := ih (by omega)
    have hmono := frameSum_mono hjk (by omega) fb
    rw [frameSum_succ (by omega) fb]
    constructor
    · intro heq m hj hlt
      rcases Nat.lt_succ_iff_lt_or_eq.1 hlt with hm | hm
      · exact ih.1 (by omega) m hj hm
      · have hzero : fb[m.val].toNat = 0 := by simp only [hm]; omega
        exact BitVec.eq_of_toNat_eq hzero
    · intro hzero
      have hlast : fb[k] = 0x00#8 := hzero ⟨k, by omega⟩ hjk (Nat.lt_succ_self k)
      rw [hlast, ih.2 fun m hj hm => hzero m hj (by omega)]
      rfl

/-- Every byte between header and checksum is the low or the high byte of a field (R41). -/
theorem exists_field_of_offset {k : Nat} (hlo : 2 ≤ k) (hhi : k < 30) : ∃ i : Fin 14, k = 2 + 2 * i.val ∨ k = 3 + 2 * i.val :=
  ⟨⟨(k - 2) / 2, by omega⟩, by dsimp only; omega⟩

theorem fieldValue_eq_zero_iff (s : State) (i : Fin 14) :
    fieldValue s i = 0x0000#16 ↔ s.fb[2 + 2 * i.val] = 0x00#8 ∧ s.fb[3 + 2 * i.val] = 0x00#8 := by
  constructor
  · intro h
    have hlow := lowByte_rdle16 s.fb[2 + 2 * i.val] s.fb[3 + 2 * i.val]
    have hhigh := highByte_rdle16 s.fb[2 + 2 * i.val] s.fb[3 + 2 * i.val]
    rw [← fieldValue, h] at hlow hhigh
    exact ⟨hlow.symm, hhigh.symm⟩
  · rintro ⟨hlow, hhigh⟩
    rw [fieldValue, hlow, hhigh]
    rfl

/-- The bytes from a field on are zero exactly when the fields from it on are. -/
theorem bytes_zero_iff_fields_zero (limit : Nat) (s : State) :
    (∀ k : Fin 32, 2 + 2 * limit ≤ k.val → k.val < 30 → s.fb[k.val] = 0x00#8) ↔
      ∀ i : Fin 14, limit ≤ i.val → fieldValue s i = 0x0000#16 := by
  constructor
  · intro hbytes i hi
    have := i.isLt
    exact (fieldValue_eq_zero_iff s i).2
      ⟨hbytes ⟨2 + 2 * i.val, by omega⟩ (by dsimp only; omega) (by dsimp only; omega),
        hbytes ⟨3 + 2 * i.val, by omega⟩ (by dsimp only; omega) (by dsimp only; omega)⟩
  · intro hfields k hlo hhi
    obtain ⟨i, hk⟩ := exists_field_of_offset (k := k.val) (by omega) hhi
    obtain ⟨hlow, hhigh⟩ := (fieldValue_eq_zero_iff s i).1 (hfields i (by omega))
    rcases hk with hk | hk
    · simp only [hk, hlow]
    · simp only [hk, hhigh]

/-- The frame after an encode is valid exactly when every stale byte is zero (R106). -/
theorem ckValid_encodeFrame_iff_bytes {limit : Nat} (hl : limit ≤ 14) (s : State) :
    ckValid (encodeFrame limit s) ↔
      ∀ k : Fin 32, 2 + 2 * limit ≤ k.val → k.val < 30 → (encodeFrame limit s).fb[k.val] = 0x00#8 := by
  rw [ckValid_encodeFrame_iff_frameSum hl, frameSum_eq_iff _ (by omega) (by omega)]

/-- The same by fields, which an encode with that limit leaves as they were (R106). -/
theorem ckValid_encodeFrame_iff_fields {limit : Nat} (hl : limit ≤ 14) (s : State) :
    ckValid (encodeFrame limit s) ↔ ∀ i : Fin 14, limit ≤ i.val → fieldValue s i = 0x0000#16 := by
  rw [ckValid_encodeFrame_iff_bytes hl, bytes_zero_iff_fields_zero]
  exact forall₂_congr fun i hi => by rw [fieldValue_encodeFrame_above s hi]

/-- With CFG_MIN ≥ 1 no field of a reachable frame is zero, so a partial encode leaves an invalid frame (R106). -/
theorem BlockInv.not_ckValid_encodeFrame {s : State} (h : BlockInv s) (hmin : 1 ≤ s.cfgMin.toNat) {limit : Nat}
    (hl : limit < 14) : ¬ ckValid (Machine.encodeFrame limit s) := by
  intro hvalid
  have hzero := (ckValid_encodeFrame_iff_fields hl.le s).1 hvalid ⟨limit, hl⟩ le_rfl
  obtain ⟨hge, -⟩ := h.fields ⟨limit, hl⟩
  rw [hzero, BitVec.toNat_ofNat] at hge
  omega

/-! ### The statements -/

/-- Settles O15: the encode operation, byte by byte, and the illegal limit. -/
theorem encodeRewritesTheFrame : Obligations.EncodeRewritesTheFrame := by
  refine fun limit s => ⟨fun hl => ?_, fun hl => exec_illegal (i := .encode limit) (countLegal_of_fifteen hl) s⟩
  obtain ⟨h0, h1⟩ := encodeFrame_header limit.toNat s
  obtain ⟨h30, h31⟩ := encodeFrame_checksum limit.toNat s
  exact ⟨_, exec_encode hl s, h0, h1, fun _ => encodeFrame_field_below s, fun _ => encodeFrame_field_above s, h30, h31⟩

/-- Settles O16: the encode operation on the state that the store loop leaves, and the illegal count. -/
theorem updateStoresThenEncodes : Obligations.UpdateStoresThenEncodes := by
  refine fun n data s => ⟨fun hn => ?_, fun hn => exec_illegal (i := .update n data) (countLegal_of_fifteen hn) s⟩
  have hexec := exec_update hn data s
  rw [respond_encodeFrame_eq, responseWord_ok] at hexec
  obtain ⟨h0, h1⟩ := encodeFrame_header n.toNat (storeChannels n.toNat data s)
  obtain ⟨h30, h31⟩ := encodeFrame_checksum n.toNat (storeChannels n.toNat data s)
  exact ⟨_, _, hexec, storeAll_get s.cfgMin s.cfgMax n.toNat data s.ch, h0, h1,
    fun _ => encodeFrame_field_below (storeChannels n.toNat data s),
    fun _ => encodeFrame_field_above (storeChannels n.toNat data s), h30, h31⟩

/-- Settles O17: the full encode of the state that the one store leaves, and the index out of bounds. -/
theorem updchStoresThenFullyEncodes : Obligations.UpdchStoresThenFullyEncodes := by
  refine fun idx data s => ⟨fun hidx => ?_, fun hidx => (exec_outOfBounds hidx data s).2⟩
  have hexec := exec_updch (channelIndex_of_lt hidx) data s
  rw [respond_encodeFrame_eq] at hexec
  obtain ⟨h0, h1⟩ := encodeFrame_header 14 (storeChannel ⟨idx.toNat, hidx⟩ (sext32 data[0]) s)
  obtain ⟨h30, h31⟩ := encodeFrame_checksum 14 (storeChannel ⟨idx.toNat, hidx⟩ (sext32 data[0]) s)
  exact ⟨_, _, hexec, storeChannel_get ⟨idx.toNat, hidx⟩ _ s, h0, h1, fun i => encodeFrame_field_below _ i.isLt, h30, h31,
    (ckValid_congr rfl).2 (encodeFrame_full_ckValid (storeChannel ⟨idx.toNat, hidx⟩ (sext32 data[0]) s))⟩

/-- Settles O19: a field below the count is the channel the store loop has just written. -/
theorem updateRoundTrip : Obligations.UpdateRoundTrip := by
  refine fun n data s hn => ⟨_, exec_update hn data s, fun i hi => ?_, ?_⟩
  · rw [fieldValue_respond, fieldValue_encodeFrame_below _ hi, storeChannels_ch, storeAll_get, if_pos hi]
  · rintro rfl
    exact (ckValid_respond _ _ _).2 (encodeFrame_full_ckValid (storeChannels 14 data s))

/-- Settles O21: a legal limit by `encodeFrame_fb_idem`; limit 15 changes nothing either time. -/
theorem repeatedEncodeGivesTheSameFrame : Obligations.RepeatedEncodeGivesTheSameFrame := by
  intro limit s
  by_cases hl : limit.toNat ≤ 14
  · exact ⟨_, _, exec_encode hl s, exec_encode hl _, encodeFrame_fb_idem limit.toNat s, rfl⟩
  · have hw : (Instr.encode limit).wf = false := decide_eq_false hl
    exact ⟨_, _, exec_illegal hw s, exec_illegal hw _, rfl, rfl⟩

/-- Settles O22: the loop over no channel, and its last round. -/
theorem checksumRunningSubtraction : Obligations.ChecksumRunningSubtraction :=
  fun ch => ⟨checksum_zero ch, fun i => checksum_succ i.isLt ch⟩

/-- Settles O23: with the sum too small to wrap, the laws are arithmetic on `checksum_toNat`; the value of (e) is computed. -/
theorem checksumUnitLaws : Obligations.ChecksumUnitLaws := by
  refine ⟨fun ch limit hl => ?_, checksum_zero, by decide⟩
  have hck := checksum_toNat hl ch
  have hsum_ge := header_le_byteSum limit ch
  have hsum_le := byteSum_le hl ch
  exact ⟨by omega, by omega, by omega, checksum_eq_not hl ch, by omega⟩

/-- Settles O24: the header, and the fields and checksum of a full encode. -/
theorem fullEncodeMakesAValidFrame : Obligations.FullEncodeMakesAValidFrame := by
  intro s
  have hexec : exec (.encode 14#4) s = .next (respond .ok 0#4 (encodeFrame 14 s)) := exec_encode (by decide) s
  obtain ⟨h0, h1⟩ := encodeFrame_header 14 s
  exact ⟨_, hexec, h0, h1, fun i => (coherent_respond _ _ _ i).2 (encodeFrame_full_coherent s i),
    (ckValid_respond _ _ _).2 (encodeFrame_full_ckValid s),
    fun i => (fieldValue_respond _ _ _ i).trans (fieldValue_encodeFrame_below s i.isLt)⟩

/-- Settles O25: the fields on both sides of the limit, the stored checksum, and validity by stale bytes and by stale fields. -/
theorem partialEncodeChecksumValidity : Obligations.PartialEncodeChecksumValidity := by
  intro limit s hl
  obtain ⟨h0, h1⟩ := encodeFrame_header limit.toNat s
  refine ⟨_, exec_encode hl.le s, h0, h1, fun i hi => ?_, fun i => fieldValue_encodeFrame_above s,
    storedChecksum_encodeFrame limit.toNat s, ?_⟩
  · exact ⟨fieldValue_encodeFrame_below s hi, fieldValue_encodeFrame_below s hi⟩
  simp only [ckValid_respond, respond_fb]
  refine ⟨?_, ckValid_encodeFrame_iff_fields hl.le s, fun hinv hmin => hinv.not_ckValid_encodeFrame hmin hl⟩
  rw [ckValid_encodeFrame_iff_bytes hl.le]
  exact forall₂_congr fun k _ => by rw [Nat.lt_succ_iff]

end Sys2Proof.Machine
end

section
/-! A failing command (spec/60_exceptions.md R131, R132, R136): it leaves nothing but its response, which no later run reads
back, and the statement O7. -/

namespace Sys2Proof.Machine

/-- Giving out more before a run and taking the run commute (R31). -/
theorem run_withEarlierOutputs (before : List Output) (n : Nat) (s : State) :
    Host.Core.run core n (withEarlierOutputs before s) = mapNext (withEarlierOutputs before) (Host.Core.run core n s) := by
  induction n generalizing s with
  | zero => rfl
  | succ n ih =>
    rw [run_succ, run_succ, step_withEarlierOutputs]
    cases step s with
    | next t => exact ih t
    | fault r => rfl
    | refused r => rfl

/-- A command that fails gives out OUT_OF_BOUNDS or ILLEGAL_COMMAND, and that is all it does (R131, R132). -/
theorem step_failed {s : State} {t : Transaction} {rest : List Input} (h : s.inputs = .command t :: rest)
    (hfail : (∃ e, decode t = .error e) ∨
      ∃ idx d, 14 ≤ idx.toNat ∧ (decode t = .ok (.setone idx d) ∨ decode t = .ok (.updch idx d))) :
    ∃ w : Word, (w = 0x00000001#32 ∨ w = 0x00000002#32) ∧
      step s = .next { s with inputs := rest, outputs := s.outputs ++ [.response w] } := by
  obtain ⟨e, he⟩ | ⟨idx, d, hidx, hd | hd⟩ := hfail
  · exact ⟨_, .inr rfl, (step_cons h).trans (runCommand_of_error he _)⟩
  · exact ⟨_, .inl rfl, (step_command h hd).trans (exec_outOfBounds hidx d _).1⟩
  · exact ⟨_, .inl rfl, (step_command h hd).trans (exec_outOfBounds hidx d _).2⟩

/-- Settles O7: the failing step leaves the state with its response given out before the run, which then takes the same run. -/
theorem failedCommandIsAsIfNeverIssued : Obligations.FailedCommandIsAsIfNeverIssued := by
  intro s u t rest n hin hfail hrun
  obtain ⟨w, hw, hstep⟩ := step_failed hin hfail
  have hpast : { s with inputs := rest, outputs := s.outputs ++ [.response w] } =
      withEarlierOutputs (s.outputs ++ [.response w]) { s with inputs := rest, outputs := [] } := by
    rw [withEarlierOutputs, List.append_nil]
  refine ⟨w, hw, ?_⟩
  rw [run_succ_of_step hstep, hpast, run_withEarlierOutputs, hrun]
  rfl

end Sys2Proof.Machine
end

section
/-! The Broadcaster's operations, one at a time (spec/60_exceptions.md R143 to R149, spec/93_implementation_defined.md section 1):
`listen`, `stop`, step 4 of `start`, a `start` whose `listen` fails, a tick, and the statements O40, O43, O44, O45 and O49. -/

namespace Sys2Proof.Machine

/-! ### listen, and the start whose listen fails (R143, R144, R149) -/

theorem addListener_of_room {s : State} (h : s.listeners.length ≠ s.maxListeners) (l : Listener) :
    addListener l s = { s with listeners := s.listeners ++ [l] } := by
  simp [addListener, listenersFull, h]

theorem addListener_of_full {s : State} (h : s.listeners.length = s.maxListeners) (l : Listener) :
    addListener l s = emit .maxListenersExceeded s := by
  simp [addListener, listenersFull, h]

/-- `stop` looks at no output (R31). -/
theorem stopBroadcast_emit (o : Output) (s : State) : stopBroadcast (emit o s) = emit o (stopBroadcast s) := by
  rw [stopBroadcast_eq, stopBroadcast_eq]
  rfl

/-- L has no room for a callback although the broadcast is stopped (R143, log 11). -/
theorem stopBroadcast_full {s : State} (h : (if s.mode = .running then 0 else s.listeners.length) = s.maxListeners) :
    (stopBroadcast s).listeners.length = (stopBroadcast s).maxListeners := by
  rw [stopBroadcast_eq]
  cases hm : s.mode <;> simpa [registered, hm] using h

/-- Without room, `start` stops the broadcast and reports the failure; HOST_START_ON_LISTEN_FAIL decides whether it goes on to its
steps 3 and 4 (R144, D23). -/
theorem start_of_full {s : State} (h : (if s.mode = .running then 0 else s.listeners.length) = s.maxListeners)
    (values : Option (List Int)) (l : Listener) :
    (Config.startOnListenFail = .abortBeforeRunning →
      start values (some l) s = .next (emit .maxListenersExceeded (stopBroadcast s))) ∧
    (Config.startOnListenFail = .continueToRunning →
      start values (some l) s = startStoring values (emit .maxListenersExceeded (stopBroadcast s))) := by
  have hfull := stopBroadcast_full h
  have hdec : listenersFull (stopBroadcast s) = true := decide_eq_true hfull
  rw [start, if_pos hdec, addListener_of_full hfull]
  exact ⟨fun habort => by rw [habort], fun hgo => by rw [hgo]⟩

/-! ### A tick (R146, R148) -/

theorem Timer.due_iff (tm : Timer) (now : Nat) :
    tm.due now = true ↔ ∀ last, tm.lastTickMs = some last → last + tm.periodMs ≤ now := by
  cases h : tm.lastTickMs with
  | none => simp [Timer.due, h]
  | some last => simp [Timer.due, h]

/-- A due tick runs through the listeners, with the host's time as the timer's last tick (log 13). -/
theorem step_tick_due {s : State} {tm : Timer} {rest : List Input} (h : s.inputs = .tick :: rest) (hm : s.mode = .running)
    (ht : s.timer = some tm) (hdue : ∀ last, tm.lastTickMs = some last → last + tm.periodMs ≤ s.clockMs) :
    step s = deliver s.listeners { s with inputs := rest, timer := some { tm with lastTickMs := some s.clockMs } } := by
  rw [step_cons h, perform, tick_running (s := { s with inputs := rest }) hm ht, if_pos ((tm.due_iff s.clockMs).2 hdue)]

/-- A tick that is not due fires nothing (R148). -/
theorem step_tick_early {s : State} {tm : Timer} {last : Nat} {rest : List Input} (h : s.inputs = .tick :: rest)
    (hm : s.mode = .running) (ht : s.timer = some tm) (hlast : tm.lastTickMs = some last)
    (hearly : s.clockMs < last + tm.periodMs) : step s = .next { s with inputs := rest } := by
  have hdue : ¬ tm.due s.clockMs = true := fun hd => absurd ((tm.due_iff s.clockMs).1 hd last hlast) (by omega)
  rw [step_cons h, perform, tick_running (s := { s with inputs := rest }) hm ht, if_neg hdue]

/-- The run through the listeners gets past those that return. -/
theorem deliver_append_of_returns {before : List Listener} (h : ∀ b ∈ before, b.behaviour = .returns) (ls : List Listener)
    (s : State) : deliver (before ++ ls) s = deliver ls { s with outputs := s.outputs ++ deliveries before s.fb } := by
  induction before generalizing s with
  | nil => simp [deliveries]
  | cons b before ih =>
    rw [List.forall_mem_cons] at h
    simp only [List.cons_append, deliver, h.1]
    rw [ih h.2]
    simp [deliveries, emit]

/-- The first listener that does not return stops the run, whatever listeners follow (93_implementation_defined.md section 1). -/
theorem deliver_stops {before after : List Listener} {l : Listener} (h : ∀ b ∈ before, b.behaviour = .returns) (s : State) :
    (l.behaviour = .neverReturns → deliver (before ++ l :: after) s = .fault .listenerNeverReturns) ∧
      (l.behaviour = .throws → deliver (before ++ l :: after) s = .refused .listenerThrows) := by
  rw [deliver_append_of_returns h]
  exact ⟨fun hl => by simp only [deliver, hl], fun hl => by simp only [deliver, hl]⟩

/-! ### The statements -/

/-- Settles O40: the two branches of `listen`. -/
theorem listenAppendsOrFails : Obligations.ListenAppendsOrFails := by
  intro s l rest h
  rw [step_cons h, perform]
  refine ⟨fun hroom => ?_, fun hfull => ?_⟩
  · rw [addListener_of_room (s := { s with inputs := rest }) hroom]
  · rw [addListener_of_full (s := { s with inputs := rest }) hfull, emit]

/-- Settles O43: the two values of the open parameter in `start_of_full`; without a callback, `start` takes the same steps 3
and 4 from the same state. -/
theorem startWhenListenFails : Obligations.StartWhenListenFails := by
  intro s values l rest h hfull
  obtain ⟨habort, hgo⟩ := start_of_full (s := { s with inputs := rest }) hfull values l
  rw [step_cons h, perform]
  refine ⟨fun hparam => ?_, fun hparam => ?_⟩
  · rw [habort hparam, stopBroadcast_eq]
    simp [registered, emit]
  · rw [hgo hparam, ← stopBroadcast_emit]
    rfl

/-- Settles O44: a due tick runs through listeners that all return. -/
theorem tickHandsTheFrameToEveryListener : Obligations.TickHandsTheFrameToEveryListener := by
  intro s rest h
  refine ⟨fun tm hm ht hdue hall => ?_, fun hm => ?_⟩
  · rw [step_tick_due h hm ht hdue, deliver_returns _ hall]
    rfl
  · rw [step_cons h, perform, tick_idle (s := { s with inputs := rest }) hm]

/-- Settles O45: under the invariant an active timer means Running, with the host's interval as its period; a due tick's run
through the listeners stops as `deliver_stops` says. -/
theorem tickSpacingAndStops : Obligations.TickSpacingAndStops := by
  refine ⟨fun s tm last rest hinv h ht hlast hearly => ?_, fun s tm before after l rest h hm ht hdue hls hbefore => ?_⟩
  · have hm : s.mode = .running := hinv.host.timer.2 (by rw [ht]; rfl)
    rw [← (hinv.host.period tm ht).1] at hearly
    exact step_tick_early h hm ht hlast hearly
  · rw [step_tick_due h hm ht hdue, hls]
    exact deliver_stops hbefore _

/-- Settles O49: step 4 in its two modes, and the run of a `start` without values and callback. -/
theorem enteringRunningStartsATimerOnlyFromIdle : Obligations.EnteringRunningStartsATimerOnlyFromIdle := by
  refine fun s rest h => ⟨fun hm => ?_, fun hm => ?_⟩
  · rw [step_cons h, perform, enterRunning_of_running (s := { s with inputs := rest }) hm]
  · have hstep := step_enterRunning hm h
    have hrun := run_start_none (s := { s with inputs := .start none none :: rest }) (callback := none) nofun rfl
    have hlisteners : (if s.mode = .running then [] else s.listeners) ++ (none : Option Listener).toList = s.listeners := by
      simp [hm]
    simp only [hlisteners] at hrun
    exact ⟨hstep, hstep.trans hrun.symm⟩

end Sys2Proof.Machine
end

section
/-! The sessions of the Broadcaster (spec/60_exceptions.md R141 to R148): what one input can do to the mode, the timer, the time and
the host parameters, said once, and the statements O41, O46 and O48. -/

namespace Sys2Proof.Machine

/-! ### Steps that hand over no frame -/

/-- What `t` has given out since `s` holds no frame for a listener. -/
def GivesNoFrame (s t : State) : Prop :=
  ∃ new : List Output, t.outputs = s.outputs ++ new ∧ ∀ l frame, Output.delivered l frame ∉ new

theorem GivesNoFrame.of_eq {s t : State} (h : t.outputs = s.outputs) : GivesNoFrame s t :=
  ⟨[], by simp [h], by simp⟩

theorem GivesNoFrame.of_one {s t : State} {o : Output} (h : t.outputs = s.outputs ++ [o])
    (ho : ∀ l frame, Output.delivered l frame ≠ o) : GivesNoFrame s t :=
  ⟨[o], h, by simpa using ho⟩

/-- A command gives out its response (R31, R130). -/
theorem givesNoFrame_exec {c : Instr} {s t : State} (h : exec c s = .next t) : GivesNoFrame s t := by
  obtain ⟨_, rfl⟩ | ⟨_, _, -, -, rfl⟩ | ⟨_, _, _, -, -, rfl⟩ | ⟨_, -, -, rfl⟩ | ⟨_, _, -, -, rfl⟩ | ⟨_, _, _, -, -, rfl⟩ :=
    exec_next h <;> exact .of_one rfl nofun

/-- `listen` gives out MaxListenersExceeded or nothing (R143). -/
theorem givesNoFrame_addListener (l : Listener) (s : State) : GivesNoFrame s (addListener l s) := by
  by_cases h : s.listeners.length = s.maxListeners
  · rw [addListener_of_full h]
    exact .of_one rfl nofun
  · rw [addListener_of_room h]
    exact .of_eq rfl

/-! ### What one input does to the session -/

/-- `t` is in the session of `s`: same mode, timer and host parameters, time not turned back, no frame handed over. -/
structure SameSession (s t : State) : Prop where
  mode         : t.mode = s.mode
  timer        : t.timer = s.timer
  intervalMs   : t.intervalMs = s.intervalMs
  maxListeners : t.maxListeners = s.maxListeners
  clockMs      : s.clockMs ≤ t.clockMs
  noFrame      : GivesNoFrame s t

/-- `t` is in Idle with the host parameters of `s`, and no frame was handed over on the way. -/
structure EndsSession (s t : State) : Prop where
  mode         : t.mode = .idle
  intervalMs   : t.intervalMs = s.intervalMs
  maxListeners : t.maxListeners = s.maxListeners
  noFrame      : GivesNoFrame s t

theorem SameHost.sameSession {s t : State} (h : SameHost s t) (hout : GivesNoFrame s t) : SameSession s t :=
  ⟨h.mode, h.timer, h.intervalMs, h.maxListeners, h.clockMs.ge, hout⟩

theorem sameSession_addListener (l : Listener) (s : State) : SameSession s (addListener l s) where
  mode := by simp
  timer := by simp
  intervalMs := by simp
  maxListeners := by simp
  clockMs := by simp
  noFrame := givesNoFrame_addListener l s

theorem endsSession_stopBroadcast (s : State) : EndsSession s (stopBroadcast s) where
  mode := by simp
  intervalMs := by simp
  maxListeners := by simp
  noFrame := .of_eq (by simp)

/-- `start` stops a running broadcast first; it enters Running only by its step 4, which is an input of its own (R144, log 10). -/
theorem endsSession_start {values : Option (List Int)} {callback : Option Listener} {s t : State}
    (h : start values callback s = .next t) : EndsSession s t := by
  obtain ⟨acts, u, rfl | ⟨l, rfl⟩, rfl⟩ := start_next h
  · exact ⟨stopBroadcast_mode s, by simp, by simp, .of_eq (by simp)⟩
  · have hout := givesNoFrame_addListener l (stopBroadcast s)
    rw [GivesNoFrame, stopBroadcast_outputs] at hout
    exact ⟨by simp, by simp, by simp, hout⟩

/-- Everything one input can do to the session: keep it, tick in it, enter Running, end it, or make a new host (R141 to R148). -/
theorem perform_session_cases {input : Input} {s t : State} (h : perform input s = .next t) :
    SameSession s t ∨
    (input = .tick ∧ ∃ tm, s.mode = .running ∧ s.timer = some tm ∧ tm.due s.clockMs = true ∧
      t = { s with timer := some { tm with lastTickMs := some s.clockMs },
                   outputs := s.outputs ++ deliveries s.listeners s.fb }) ∨
    (input = .enterRunning ∧ t = enterRunning s) ∨
    ((input = .stop ∨ ∃ values callback, input = .start values callback) ∧ EndsSession s t) ∨
    (∃ c, input = .construct c ∧ t = constructed c s.inputs s) := by
  cases input with
  | command tr =>
    obtain ⟨c, -, he⟩ | rfl := runCommand_next h
    · exact .inl ((sameHost_exec he).sameSession (givesNoFrame_exec he))
    · exact .inl ⟨rfl, rfl, rfl, rfl, le_rfl, .of_one rfl nofun⟩
  | read a =>
    cases h
    exact .inl ⟨rfl, rfl, rfl, rfl, le_rfl, .of_one rfl nofun⟩
  | reset lo hi dflt =>
    obtain ⟨-, rfl⟩ := runReset_next h
    exact .inl ⟨rfl, rfl, rfl, rfl, le_rfl, .of_eq rfl⟩
  | construct c =>
    obtain ⟨-, rfl⟩ := construct_next h
    exact .inr (.inr (.inr (.inr ⟨c, rfl, rfl⟩)))
  | asm line =>
    obtain ⟨ts, -, rfl⟩ := runAsm_next h
    exact .inl ⟨rfl, rfl, rfl, rfl, le_rfl, .of_eq rfl⟩
  | call c =>
    obtain ⟨acts, -, rfl⟩ := runCall_next h
    exact .inl ⟨rfl, rfl, rfl, rfl, le_rfl, .of_eq rfl⟩
  | listen l =>
    cases h
    exact .inl (sameSession_addListener l s)
  | start values callback => exact .inr (.inr (.inr (.inl ⟨.inr ⟨values, callback, rfl⟩, endsSession_start h⟩)))
  | enterRunning =>
    cases h
    exact .inr (.inr (.inl ⟨rfl, rfl⟩))
  | stop =>
    cases h
    exact .inr (.inr (.inr (.inl ⟨.inl rfl, endsSession_stopBroadcast s⟩)))
  | tick =>
    obtain rfl | ⟨tm, hm, ht, hdue, -, rfl⟩ := tick_next h
    · exact .inl ⟨rfl, rfl, rfl, rfl, le_rfl, .of_eq rfl⟩
    · exact .inr (.inl ⟨rfl, tm, hm, ht, hdue, rfl⟩)
  | elapse ms =>
    cases h
    exact .inl ⟨rfl, rfl, rfl, rfl, Nat.le_add_right _ _, .of_eq rfl⟩

/-! ### The statements -/

/-- Settles O41: `stop` in its two modes; from Idle no tick fires, and only step 4 of a `start` enters Running. -/
theorem stopCancelsEverything : Obligations.StopCancelsEverything := by
  refine ⟨fun s rest h => ?_, fun s t input rest hm hin hne h => ?_⟩
  · rw [step_cons h, perform, stopBroadcast_eq]
    exact ⟨fun hm => by simp [registered, hm], fun hm => by simp [registered, hm]⟩
  · rw [step_cons hin] at h
    obtain hsame | ⟨-, tm, hrun, -⟩ | ⟨rfl, -⟩ | ⟨-, hend⟩ | ⟨c, -, rfl⟩ := perform_session_cases h
    · exact ⟨hsame.mode.trans hm, hsame.noFrame⟩
    · rw [hm] at hrun
      cases hrun
    · exact absurd rfl hne
    · exact ⟨hend.mode, hend.noFrame⟩
    · exact ⟨rfl, GivesNoFrame.of_eq rfl⟩

/-- The floor of 7 on the interval (R141). -/
theorem broadcastInterval_eq (configured : Int) : (broadcastInterval configured : Int) = max configured 7 := by
  simp only [broadcastInterval, Config.intervalFloorMs]
  omega

/-- Settles O46: the parameters of a new host, and every other input leaves them. -/
theorem hostParametersAreFixedAtConstruction : Obligations.HostParametersAreFixedAtConstruction := by
  refine ⟨⟨rfl, rfl⟩, fun s c rest h hok => ?_, fun s t input rest hin hne h => ?_⟩
  · exact ⟨_, step_construct h ((hostConfigOk_iff c).2 hok), broadcastInterval_eq c.broadcastIntervalMs, rfl⟩
  · rw [step_cons hin] at h
    obtain hsame | ⟨-, tm, -, -, -, rfl⟩ | ⟨-, rfl⟩ | ⟨-, hend⟩ | ⟨c, rfl, -⟩ := perform_session_cases h
    · exact ⟨hsame.intervalMs, hsame.maxListeners⟩
    · exact ⟨rfl, rfl⟩
    · exact ⟨enterRunning_intervalMs _, enterRunning_maxListeners _⟩
    · exact ⟨hend.intervalMs, hend.maxListeners⟩
    · exact absurd rfl (hne c)

/-- Settles O48: under the invariant the host is Running with its interval as the timer's period, so step 4 of a `start` changes
nothing, and the tick that fires was due. -/
theorem ticksOfOneSessionAreSpaced : Obligations.TicksOfOneSessionAreSpaced := by
  intro s t tm last input rest hinv ht hlast hin hstart hstop hconstruct h
  have hm : s.mode = .running := hinv.host.timer.2 (by rw [ht]; rfl)
  have hperiod : tm.periodMs = s.intervalMs := (hinv.host.period tm ht).1
  rw [step_cons hin] at h
  obtain hsame | ⟨rfl, tm', -, ht', hdue, rfl⟩ | ⟨-, rfl⟩ | ⟨rfl | ⟨values, callback, rfl⟩, -⟩ | ⟨c, rfl, -⟩ :=
    perform_session_cases h
  · exact ⟨hsame.mode.trans hm, hsame.clockMs, .inl ⟨hsame.timer, hsame.noFrame⟩⟩
  · obtain rfl : tm = tm' := Option.some.inj (ht.symm.trans ht')
    have hlate := (tm.due_iff s.clockMs).1 hdue last hlast
    rw [hperiod] at hlate
    exact ⟨hm, le_rfl, .inr ⟨rfl, hlate, by rw [hperiod]⟩⟩
  · rw [enterRunning_of_running (s := { s with inputs := rest }) hm]
    exact ⟨hm, le_rfl, .inl ⟨rfl, GivesNoFrame.of_eq rfl⟩⟩
  · exact absurd rfl hstop
  · exact absurd rfl (hstart values callback)
  · exact absurd rfl (hconstruct c)

end Sys2Proof.Machine
end

section
/-! The idle machine (R160; log 2). -/

namespace Sys2Proof.Machine

/-- Settles O9: `step_nil`, the step on an empty list of inputs. -/
theorem idleMachineStaysAsItIs : Obligations.IdleMachineStaysAsItIs :=
  fun _ hinputs => step_nil hinputs

end Sys2Proof.Machine
end
